-- ==== Sys2Proof/Word.lean ====
section
/-! DEFINITION. The word types of the CR8 core (00_scope.md R6, R8). -/

namespace Sys2Proof

/-- A `u8`: every register, immediate byte, memory cell, bank id and port id (00_scope.md R8). -/
abbrev Byte := BitVec 8

/-- A `u16`: `pc`, `sp` and memory addresses (00_scope.md R8). -/
abbrev Addr := BitVec 16

/-- A register field of an instruction, 4 bits wide, of which only 0 to 7 are valid (30_encoding.md R90). -/
abbrev RegField := BitVec 4

/-- The index of a register of the file, 0 to 7 (10_state.md R20). -/
abbrev RegIndex := Fin 8

end Sys2Proof
end

