-- ==== Sys2Proof/Syntax.lean ====
section
/-! DEFINITION. The instructions of the CR8 core: the 15 operations, the four addressing modes, and one
constructor for each of the 29 rows of spec/opcode_table.json. -/

namespace Sys2Proof

/-- The 15 operations (30_encoding.md R84), in the order of the source's §4.1. Their numbers are the
parameter OPMAP, not this order. -/
inductive Operation where
  | mov | jnz | lw | sw | push | pop | input | output | adc | sbb | cmp | and | or | nor | bank
deriving DecidableEq, Repr

/-- The addressing modes, bits 1:0 of byte 0 (30_encoding.md R82). -/
inductive AddressingMode where
  /-- one register, no immediate (mode 0) -/
  | r1i0
  /-- no register, one immediate byte (mode 1) -/
  | r0i1
  /-- one register and an immediate byte, for LW and SW an address (mode 2) -/
  | r1i1
  /-- two registers packed into byte 1 (mode 3) -/
  | r2i0
deriving DecidableEq, Repr

/-- A decoded instruction form (30_encoding.md R95, R96): one constructor per row of the opcode table. A register
operand is the 4-bit field as decoded; a field above 7 is no register, and is found when the form executes (R90,
40_cycle.md R112; log entry 18). In a two-register form the primary field (low nibble) comes first (R92). -/
inductive Instr where
  | movImm (rd : RegField) (imm : Byte)
  | movReg (rd rs : RegField)
  | jnzReg (rc : RegField)
  | jnzImm (imm : Byte)
  | lwPair (rd : RegField)
  | lwAbs (rd : RegField) (addr : Addr)
  | swPair (rs : RegField)
  | swAbs (rs : RegField) (addr : Addr)
  | pushReg (rs : RegField)
  | pushImm (imm : Byte)
  | popReg (rd : RegField)
  | inImm (rd : RegField) (port : Byte)
  | inReg (rd rp : RegField)
  | outImm (rs : RegField) (port : Byte)
  | outReg (rs rp : RegField)
  | adcImm (ra : RegField) (imm : Byte)
  | adcReg (ra rb : RegField)
  | sbbImm (ra : RegField) (imm : Byte)
  | sbbReg (ra rb : RegField)
  | cmpImm (ra : RegField) (imm : Byte)
  | cmpReg (ra rb : RegField)
  | andImm (ra : RegField) (imm : Byte)
  | andReg (ra rb : RegField)
  | orImm (ra : RegField) (imm : Byte)
  | orReg (ra rb : RegField)
  | norImm (ra : RegField) (imm : Byte)
  | norReg (ra rb : RegField)
  | bankReg (rs : RegField)
  | bankImm (imm : Byte)
deriving DecidableEq, Repr

/-- The register fields of a form, the primary (or only) one first: the order in which they are checked
(40_cycle.md R112). -/
def Instr.regFields : Instr → List RegField
  | .movImm rd _ => [rd]
  | .movReg rd rs => [rd, rs]
  | .jnzReg rc => [rc]
  | .jnzImm _ => []
  | .lwPair rd => [rd]
  | .lwAbs rd _ => [rd]
  | .swPair rs => [rs]
  | .swAbs rs _ => [rs]
  | .pushReg rs => [rs]
  | .pushImm _ => []
  | .popReg rd => [rd]
  | .inImm rd _ => [rd]
  | .inReg rd rp => [rd, rp]
  | .outImm rs _ => [rs]
  | .outReg rs rp => [rs, rp]
  | .adcImm ra _ => [ra]
  | .adcReg ra rb => [ra, rb]
  | .sbbImm ra _ => [ra]
  | .sbbReg ra rb => [ra, rb]
  | .cmpImm ra _ => [ra]
  | .cmpReg ra rb => [ra, rb]
  | .andImm ra _ => [ra]
  | .andReg ra rb => [ra, rb]
  | .orImm ra _ => [ra]
  | .orReg ra rb => [ra, rb]
  | .norImm ra _ => [ra]
  | .norReg ra rb => [ra, rb]
  | .bankReg rs => [rs]
  | .bankImm _ => []

end Sys2Proof
end

