-- ==== Sys2Proof/Config.lean ====
section
/-! DEFINITION. What an implementation fixes (the parameters of 00_scope.md R6), the vocabulary of the device bus, and
the one free value of the model: the byte a device answers. -/

namespace Sys2Proof

/-- OPMAP: the operation of each code 0 to 14 (30_encoding.md R84). -/
abbrev OpMap := Vector Operation 15

/-- REGMAP: the index of each register name (10_state.md R20). -/
structure RegMap where
  a : RegIndex
  b : RegIndex
  c : RegIndex
  d : RegIndex
  z : RegIndex
  x : RegIndex
  y : RegIndex
  f : RegIndex
deriving DecidableEq, Repr

/-- JNZ_IMM_COND: what JNZ R0I1 tests (44_branch.md R161; 92_eei_decisions.md D10). -/
inductive JnzImmCond where
  /-- the immediate byte (the default) -/
  | imm
  /-- the constant 1: always taken -/
  | one
deriving DecidableEq, Repr

/-- The implementation parameters of 00_scope.md R6. The spec asks a model to take them as arguments; here they
stand in State as plain data that no step changes, so a statement about every state is about every choice of them (log
entry 1). -/
structure Params where
  opMap : OpMap
  regMap : RegMap
  /-- STACK: the lowest stack cell and the reset value of `sp` -/
  stack : Addr
  /-- STACK_END: the exclusive stack limit -/
  stackEnd : Addr
  /-- BANK_BASE: the first address of the banked window -/
  bankBase : Addr
  /-- BANK_SIZE: how many addresses the banked window has -/
  bankSize : Nat
  /-- NUM_BANKS: the configured banks are 0 to NUM_BANKS - 1 -/
  numBanks : Nat
  /-- MAPPED, by its complement: the inclusive ranges of addresses outside the addressable range -/
  unmapped : List (Addr × Addr)
  jnzImmCond : JnzImmCond
  /-- REG_RESET(i) -/
  regReset : Vector Byte 8
  /-- MEM_RESET: what every cell outside the loaded image holds after reset -/
  memReset : Byte
  /-- PC_RESET -/
  pcReset : Addr
  /-- STOP_PC: the address at which the host ends a run, if it chose one (70_reset_and_hazards.md R266) -/
  stopPc : Option Addr
deriving DecidableEq, Repr

/-- All operations, to say that an OPMAP numbers each of them. -/
def Operation.all : List Operation :=
  [.mov, .jnz, .lw, .sw, .push, .pop, .input, .output, .adc, .sbb, .cmp, .and, .or, .nor, .bank]

/-- An OPMAP that gives every operation a number. With 15 places for 15 operations it gives each exactly one. -/
def OpMap.complete (m : OpMap) : Bool := Operation.all.all fun o => m.toList.contains o

/-- The indices of the names, to say that no two names share one. -/
def RegMap.indices (m : RegMap) : List RegIndex := [m.a, m.b, m.c, m.d, m.z, m.x, m.y, m.f]

/-- The constraints a model must check on the parameters (00_scope.md R6), and that OPMAP and REGMAP are maps of all
15 operations and all 8 names. -/
def Params.wf (p : Params) : Bool :=
  p.opMap.complete && decide p.regMap.indices.Nodup
    && decide (p.stack.toNat ≤ p.stackEnd.toNat)
    && decide (p.bankBase.toNat + p.bankSize ≤ 0x10000)
    && decide (1 ≤ p.numBanks) && decide (p.numBanks ≤ 256)

/-- A registered device as the core sees it: a port id and a name (45_io.md R178). Its hooks are the host's code: a
call of one is recorded in State, and what `receive` answers is the free value `Config.deviceAnswer`. -/
structure Device where
  port : Byte
  name : String
deriving DecidableEq, Repr

/-- What a hook may read of the core: registers, `pc` and `sp` (45_io.md R178). -/
structure CoreSnapshot where
  regs : Vector Byte 8
  pc : Addr
  sp : Addr
deriving DecidableEq, Repr

/-- A call of a device hook (45_io.md R171, R172, R177). -/
inductive BusCall where
  | receive (d : Device) (snapshot : CoreSnapshot)
  | send (d : Device) (snapshot : CoreSnapshot) (v : Byte)
  | onRemove (d : Device) (snapshot : CoreSnapshot)
deriving DecidableEq, Repr

/-- DESIGN CHOICE (log entry 6). FREE VALUE: the byte the device answers to the newest `receive` of a log of hook
calls, newest call first. The spec calls it "an external input with no law (a draw)" (45_io.md R171;
92_eei_decisions.md D35). Every `receive` lengthens the log, so within a run each draw is a fresh one. -/
opaque Config.deviceAnswer : List BusCall → Byte

end Sys2Proof
end

