-- ==== Sys2Proof/WellFormed.lean ====
section
/-! DEFINITION. Which instructions are well formed: every register field names a register (30_encoding.md R90). -/

namespace Sys2Proof

/-- A register field is valid when it is 0 to 7 (30_encoding.md R90). -/
def RegField.valid (r : RegField) : Bool := decide (r.toNat < 8)

/-- An instruction is well formed when each of its register fields is valid. This is the only check: immediates, ports
and addresses may be any value (30_encoding.md R91; 45_io.md R173). -/
def Instr.wellFormed (i : Instr) : Bool := i.regFields.all RegField.valid

end Sys2Proof
end

