-- ==== Sys2Proof/Decode.lean ====
section
/-! DEFINITION. The decoder (30_encoding.md R80 to R98), total on every 4-byte window, and the encoder written from the
same tables. Also how the opcode table numbers an instruction's bits (R102). -/

namespace Sys2Proof

/-- The four bytes the fetch reads at `pc` (30_encoding.md R80). The instruction is the first 2, 3 or 4 of them. -/
structure Window where
  b0 : Byte
  b1 : Byte
  b2 : Byte
  b3 : Byte
deriving DecidableEq, Repr

/-- The two ways a window is no instruction (30_encoding.md R96). -/
inductive DecodeError where
  /-- `op` is 15 to 63 (R83) -/
  | invalidOperation (op : BitVec 6)
  /-- the operation has no form in this mode (R94) -/
  | invalidAddressingMode (op : BitVec 6) (mode : AddressingMode)
deriving DecidableEq, Repr

/-- What the decoder answers: a form, or an error by name (30_encoding.md R96). -/
inductive Decoded where
  | form (i : Instr)
  | error (e : DecodeError)
deriving DecidableEq, Repr

/-- The default OPMAP: the order of the source's §4.1 (30_encoding.md R84; 90_conflicts.md C1). -/
def defaultOpMap : OpMap :=
  #v[.mov, .jnz, .lw, .sw, .push, .pop, .input, .output, .adc, .sbb, .cmp, .and, .or, .nor, .bank]

/-- `op = b0[7:2]` (30_encoding.md R81). -/
def opField (b0 : Byte) : BitVec 6 := b0.extractLsb' 2 6

/-- The mode that a value of `b0[1:0]` names (30_encoding.md R82). -/
def modeOfNumber (n : BitVec 2) : AddressingMode :=
  match n.toNat with
  | 0 => .r1i0
  | 1 => .r0i1
  | 2 => .r1i1
  | _ => .r2i0

/-- `mode = b0[1:0]` (30_encoding.md R81). -/
def modeField (b0 : Byte) : AddressingMode := modeOfNumber (b0.extractLsb' 0 2)

/-- The low nibble of byte 1: `r`, or the primary field `p` (30_encoding.md R85, R89). -/
def lowNibble (b1 : Byte) : RegField := b1.extractLsb' 0 4

/-- The high nibble of byte 1: the secondary field `s` in R2I0, ignored elsewhere (30_encoding.md R85, R89). -/
def highNibble (b1 : Byte) : RegField := b1.extractLsb' 4 4

/-- `hi : lo`, the 16-bit value of two bytes (00_scope.md R8). -/
def joinBytes (hi lo : Byte) : Addr := hi ++ lo

/-- The low byte of a 16-bit value. -/
def lowByte (a : Addr) : Byte := a.extractLsb' 0 8

/-- The high byte of a 16-bit value. -/
def highByte (a : Addr) : Byte := a.extractLsb' 8 8

/-- The form of an operation in a mode, with its operands taken from the window, or none where the operation does not
support the mode (30_encoding.md R85 to R89, R93, R96). -/
def formOf (o : Operation) (m : AddressingMode) (w : Window) : Option Instr :=
  match o, m with
  | .mov, .r1i1 => some (.movImm (lowNibble w.b1) w.b2)
  | .mov, .r2i0 => some (.movReg (lowNibble w.b1) (highNibble w.b1))
  | .jnz, .r1i0 => some (.jnzReg (lowNibble w.b1))
  | .jnz, .r0i1 => some (.jnzImm w.b1)
  | .lw, .r1i0 => some (.lwPair (lowNibble w.b1))
  | .lw, .r1i1 => some (.lwAbs (lowNibble w.b1) (joinBytes w.b3 w.b2))
  | .sw, .r1i0 => some (.swPair (lowNibble w.b1))
  | .sw, .r1i1 => some (.swAbs (lowNibble w.b1) (joinBytes w.b3 w.b2))
  | .push, .r1i0 => some (.pushReg (lowNibble w.b1))
  | .push, .r0i1 => some (.pushImm w.b1)
  | .pop, .r1i0 => some (.popReg (lowNibble w.b1))
  | .input, .r1i1 => some (.inImm (lowNibble w.b1) w.b2)
  | .input, .r2i0 => some (.inReg (lowNibble w.b1) (highNibble w.b1))
  | .output, .r1i1 => some (.outImm (lowNibble w.b1) w.b2)
  | .output, .r2i0 => some (.outReg (lowNibble w.b1) (highNibble w.b1))
  | .adc, .r1i1 => some (.adcImm (lowNibble w.b1) w.b2)
  | .adc, .r2i0 => some (.adcReg (lowNibble w.b1) (highNibble w.b1))
  | .sbb, .r1i1 => some (.sbbImm (lowNibble w.b1) w.b2)
  | .sbb, .r2i0 => some (.sbbReg (lowNibble w.b1) (highNibble w.b1))
  | .cmp, .r1i1 => some (.cmpImm (lowNibble w.b1) w.b2)
  | .cmp, .r2i0 => some (.cmpReg (lowNibble w.b1) (highNibble w.b1))
  | .and, .r1i1 => some (.andImm (lowNibble w.b1) w.b2)
  | .and, .r2i0 => some (.andReg (lowNibble w.b1) (highNibble w.b1))
  | .or, .r1i1 => some (.orImm (lowNibble w.b1) w.b2)
  | .or, .r2i0 => some (.orReg (lowNibble w.b1) (highNibble w.b1))
  | .nor, .r1i1 => some (.norImm (lowNibble w.b1) w.b2)
  | .nor, .r2i0 => some (.norReg (lowNibble w.b1) (highNibble w.b1))
  | .bank, .r1i0 => some (.bankReg (lowNibble w.b1))
  | .bank, .r0i1 => some (.bankImm w.b1)
  | _, _ => none

/-- The decoder under an OPMAP (30_encoding.md R96). Register fields are not judged here (R90). -/
def decodeWith (m : OpMap) (w : Window) : Decoded :=
  if h : (opField w.b0).toNat < 15 then
    match formOf m[(opField w.b0).toNat] (modeField w.b0) w with
    | some i => .form i
    | none => .error (.invalidAddressingMode (opField w.b0) (modeField w.b0))
  else .error (.invalidOperation (opField w.b0))

/-- The decoder under the default OPMAP. -/
def decode (w : Window) : Decoded := decodeWith defaultOpMap w

/-- The operation of a form (30_encoding.md R93). -/
def Instr.operation : Instr → Operation
  | .movImm _ _ => .mov
  | .movReg _ _ => .mov
  | .jnzReg _ => .jnz
  | .jnzImm _ => .jnz
  | .lwPair _ => .lw
  | .lwAbs _ _ => .lw
  | .swPair _ => .sw
  | .swAbs _ _ => .sw
  | .pushReg _ => .push
  | .pushImm _ => .push
  | .popReg _ => .pop
  | .inImm _ _ => .input
  | .inReg _ _ => .input
  | .outImm _ _ => .output
  | .outReg _ _ => .output
  | .adcImm _ _ => .adc
  | .adcReg _ _ => .adc
  | .sbbImm _ _ => .sbb
  | .sbbReg _ _ => .sbb
  | .cmpImm _ _ => .cmp
  | .cmpReg _ _ => .cmp
  | .andImm _ _ => .and
  | .andReg _ _ => .and
  | .orImm _ _ => .or
  | .orReg _ _ => .or
  | .norImm _ _ => .nor
  | .norReg _ _ => .nor
  | .bankReg _ => .bank
  | .bankImm _ => .bank

/-- The addressing mode of a form (30_encoding.md R93). -/
def Instr.mode : Instr → AddressingMode
  | .movImm _ _ => .r1i1
  | .movReg _ _ => .r2i0
  | .jnzReg _ => .r1i0
  | .jnzImm _ => .r0i1
  | .lwPair _ => .r1i0
  | .lwAbs _ _ => .r1i1
  | .swPair _ => .r1i0
  | .swAbs _ _ => .r1i1
  | .pushReg _ => .r1i0
  | .pushImm _ => .r0i1
  | .popReg _ => .r1i0
  | .inImm _ _ => .r1i1
  | .inReg _ _ => .r2i0
  | .outImm _ _ => .r1i1
  | .outReg _ _ => .r2i0
  | .adcImm _ _ => .r1i1
  | .adcReg _ _ => .r2i0
  | .sbbImm _ _ => .r1i1
  | .sbbReg _ _ => .r2i0
  | .cmpImm _ _ => .r1i1
  | .cmpReg _ _ => .r2i0
  | .andImm _ _ => .r1i1
  | .andReg _ _ => .r2i0
  | .orImm _ _ => .r1i1
  | .orReg _ _ => .r2i0
  | .norImm _ _ => .r1i1
  | .norReg _ _ => .r2i0
  | .bankReg _ => .r1i0
  | .bankImm _ => .r0i1

/-- The length in bytes of an operation's form in a mode, for a mode the operation supports (30_encoding.md R93). -/
def formLength (o : Operation) (m : AddressingMode) : Nat :=
  match m with
  | .r1i0 => 2
  | .r0i1 => 2
  | .r2i0 => 2
  | .r1i1 => if o = .lw ∨ o = .sw then 4 else 3

/-- The encoded length of an instruction (30_encoding.md R93). -/
def Instr.length (i : Instr) : Nat := formLength i.operation i.mode

/-- The number of a mode (30_encoding.md R82). -/
def modeNumber : AddressingMode → BitVec 2
  | .r1i0 => 0
  | .r0i1 => 1
  | .r1i1 => 2
  | .r2i0 => 3

/-- The code an OPMAP gives an operation: the place it stands at (30_encoding.md R84). -/
def opNumber (m : OpMap) (o : Operation) : BitVec 6 := BitVec.ofNat 6 (m.toList.idxOf o)

/-- Byte 0 of an instruction (30_encoding.md R81). -/
def encodeByte0 (m : OpMap) (i : Instr) : Byte := opNumber m i.operation ++ modeNumber i.mode

/-- Byte 1 with one register field, its ignored high nibble written as 0 (30_encoding.md R85; log entry 19). -/
def oneReg (r : RegField) : Byte := (0 : BitVec 4) ++ r

/-- Byte 1 with two register fields: the secondary high, the primary low (30_encoding.md R89). -/
def twoRegs (p s : RegField) : Byte := s ++ p

/-- The bytes after byte 0 (30_encoding.md R85 to R89). -/
def encodeOperands : Instr → List Byte
  | .movImm rd imm => [oneReg rd, imm]
  | .movReg rd rs => [twoRegs rd rs]
  | .jnzReg rc => [oneReg rc]
  | .jnzImm imm => [imm]
  | .lwPair rd => [oneReg rd]
  | .lwAbs rd addr => [oneReg rd, lowByte addr, highByte addr]
  | .swPair rs => [oneReg rs]
  | .swAbs rs addr => [oneReg rs, lowByte addr, highByte addr]
  | .pushReg rs => [oneReg rs]
  | .pushImm imm => [imm]
  | .popReg rd => [oneReg rd]
  | .inImm rd port => [oneReg rd, port]
  | .inReg rd rp => [twoRegs rd rp]
  | .outImm rs port => [oneReg rs, port]
  | .outReg rs rp => [twoRegs rs rp]
  | .adcImm ra imm => [oneReg ra, imm]
  | .adcReg ra rb => [twoRegs ra rb]
  | .sbbImm ra imm => [oneReg ra, imm]
  | .sbbReg ra rb => [twoRegs ra rb]
  | .cmpImm ra imm => [oneReg ra, imm]
  | .cmpReg ra rb => [twoRegs ra rb]
  | .andImm ra imm => [oneReg ra, imm]
  | .andReg ra rb => [twoRegs ra rb]
  | .orImm ra imm => [oneReg ra, imm]
  | .orReg ra rb => [twoRegs ra rb]
  | .norImm ra imm => [oneReg ra, imm]
  | .norReg ra rb => [twoRegs ra rb]
  | .bankReg rs => [oneReg rs]
  | .bankImm imm => [imm]

/-- The bytes of an instruction under an OPMAP, in instruction order. -/
def encodeWith (m : OpMap) (i : Instr) : List Byte := encodeByte0 m i :: encodeOperands i

/-- The bytes of an instruction under the default OPMAP. -/
def encode (i : Instr) : List Byte := encodeWith defaultOpMap i

/-- The window whose first bytes are a list's, a byte the list does not have being 0. -/
def windowOf (bytes : List Byte) : Window where
  b0 := bytes.getD 0 0
  b1 := bytes.getD 1 0
  b2 := bytes.getD 2 0
  b3 := bytes.getD 3 0

/-- The first `n` bytes of a window, in order. -/
def Window.take (w : Window) (n : Nat) : List Byte := [w.b0, w.b1, w.b2, w.b3].take n

/-- Byte `k` (from 0) of an instruction of `nbits` bits that the opcode table writes as the number `w`: the table puts
`b0` in the most significant byte (30_encoding.md R102; log entry 11). Past the instruction's bytes, 0. -/
def tableByte (nbits w k : Nat) : Byte :=
  if k < nbits / 8 then BitVec.ofNat 8 (w >>> (8 * (nbits / 8 - 1 - k))) else 0

/-- The window of an instruction the opcode table numbers as `w` over `nbits` bits, later bytes 0. -/
def tableWindow (nbits w : Nat) : Window where
  b0 := tableByte nbits w 0
  b1 := tableByte nbits w 1
  b2 := tableByte nbits w 2
  b3 := tableByte nbits w 3

/-- The instruction the decoder reads from an instruction word of the opcode table, numbered as that table numbers it;
none where it is rejected. -/
def decodeTableWord (nbits w : Nat) : Option Instr :=
  match decode (tableWindow nbits w) with
  | .form i => some i
  | .error _ => none

end Sys2Proof
end

