-- ==== Sys2Proof/Machine/Defaults.lean ====
section
/-! DEFINITION. The default parameters of 00_scope.md R6, each the spec's own decision (log entry 2). -/

namespace Sys2Proof.Machine

/-- The default REGMAP, in the order the source lists the names (10_state.md R20; 92_eei_decisions.md D2). -/
def defaultRegMap : RegMap :=
  { a := 0, b := 1, c := 2, d := 3, z := 4, x := 5, y := 6, f := 7 }

/-- The default of every parameter (00_scope.md R6; 92_eei_decisions.md D1, D2, D10, D14 to D19, D21, D31). -/
def defaultParams : Params where
  opMap := defaultOpMap
  regMap := defaultRegMap
  stack := 0xFC00
  stackEnd := 0xFF00
  bankBase := 0x8000
  bankSize := 0x4000
  numBanks := 4
  unmapped := []
  jnzImmCond := .imm
  regReset := #v[0, 0, 0, 0, 0, 0, 0, 0]
  memReset := 0
  pcReset := 0
  stopPc := none

end Sys2Proof.Machine
end

