-- ==== Sys2Proof/Machine/State.lean ====
section
/-! DEFINITION. The state of the CR8 core as plain data (10_state.md), its errors, and the state after reset. -/

namespace Sys2Proof.Machine

/-- The error kinds of 60_exceptions.md R230, each with the detail the spec records. -/
inductive Error where
  /-- `b0[7:2]` above 14 -/
  | invalidOperation (op : BitVec 6)
  /-- the operation does not support the mode -/
  | invalidAddressingMode (op : BitVec 6) (mode : AddressingMode)
  /-- PUSH at or after STACK_END -/
  | stackOverflow (sp : Addr)
  /-- POP at or below STACK -/
  | stackUnderflow (sp : Addr)
  /-- MemoryAccessError: an address outside the addressable range -/
  | memoryAddress (addr : Addr)
  /-- MemoryAccessError: a bank id that is not configured -/
  | memoryBank (bank : Byte)
  /-- IN or OUT to a port no device is registered at -/
  | deviceNotPresent (port : Byte)
  /-- a register field of 8 to 15 -/
  | invalidRegister (field : RegField)
deriving DecidableEq, Repr

/-- The record of an error: what it was, and the `pc` of the failing instruction (60_exceptions.md R232). -/
structure FaultRecord where
  error : Error
  pc : Addr
deriving DecidableEq, Repr

/-- The run status (10_state.md R38). -/
inductive RunStatus where
  | running
  | faulted (record : FaultRecord)
deriving DecidableEq, Repr

/-- The operations of a host agent (20_memory.md R70; 45_io.md R177). -/
inductive HostOp where
  /-- read one byte of memory -/
  | get (addr : Addr)
  /-- write one byte of memory -/
  | set (addr : Addr) (v : Byte)
  /-- select the active bank -/
  | selectBank (bank : Byte)
  /-- register a device under the next default port id -/
  | registerDefault (name : String)
  /-- register a device under an explicit port id -/
  | registerAt (port : Byte) (name : String)
  /-- remove the device at a port -/
  | remove (port : Byte)
deriving DecidableEq, Repr

/-- Memory: (cell number, byte) pairs, cell numbers strictly rising, no pair holding the value an unlisted cell
reads as (log entry 3). `cellKey` of Machine/Memory.lean numbers the cells. -/
abbrev Memory := List Host.Cell

/-- The canonical form of memory, for the value `d` that an unlisted cell reads as. -/
abbrev Memory.wf (d : Byte) (m : Memory) : Prop :=
  m.Pairwise (fun x y => x.1 < y.1) ∧ ∀ c ∈ m, c.2 ≠ d

/-- The machine. -/
structure State where
  /-- the implementation parameters, changed by no step (00_scope.md R6; log entry 1) -/
  params : Params
  /-- the register file `x[0]` to `x[7]` (10_state.md R20) -/
  regs : Vector Byte 8
  /-- the program counter (10_state.md R31) -/
  pc : Addr
  /-- the stack pointer, the address of the next free stack cell (10_state.md R32) -/
  sp : Addr
  /-- the active bank (10_state.md R34) -/
  bank : Byte
  /-- the common store and every bank store (20_memory.md R53) -/
  mem : Memory
  /-- the device registry in registration order (10_state.md R35) -/
  devices : List Device
  /-- the next default port id; 256 once they are used up (45_io.md R177) -/
  nextPort : Nat
  /-- the model's own: the device hooks called so far, newest first (log entry 7) -/
  busLog : List BusCall
  /-- the model's own: the host operations to come, a batch before each atomic operation of the core (log entry 5) -/
  agenda : List (List HostOp)
  /-- the run status (10_state.md R38) -/
  status : RunStatus
deriving DecidableEq, Repr

/-- Why the machine stops. -/
inductive Fault where
  /-- Raised by `step` alone, on a core whose status is `Faulted` with this record: such a core has no further step
  (40_cycle.md R117; 60_exceptions.md R235). The error itself was taken by an earlier step as a next state (log entry
  4). Safe: the spec gives the core no move here. -/
  | coreFaulted (record : FaultRecord)
deriving DecidableEq, Repr

/-- Why the model gives an instruction no meaning. -/
inductive Refusal where
  /-- Raised by `exec` for an instruction that has no meaning yet: none in this model. Safe. -/
  | notModelled (mnemonic : String)
deriving DecidableEq, Repr

/-- The core as created under given parameters (10_state.md R39, R40; 70_reset_and_hazards.md R260). The last two
fields of the model's own are DESIGN CHOICE empty (log entries 5, 7). -/
def State.resetWith (p : Params) : State where
  params := p
  regs := p.regReset
  pc := p.pcReset
  sp := p.stack
  bank := 0
  mem := []
  devices := []
  nextPort := 0
  busLog := []
  agenda := []
  status := .running

/-- The machine right after reset, under the default parameters. -/
def State.reset : State := State.resetWith defaultParams

end Sys2Proof.Machine
end

