-- ==== Sys2Proof/Machine/Flags.lean ====
section
/-! DEFINITION. The flags of F (10_state.md R26 to R30) and the functions of the ALU (46_alu.md R190 to R193). -/

namespace Sys2Proof.Machine

/-- The four flags of F (10_state.md R26). -/
inductive Flag where
  | less | equal | carry | borrow
deriving DecidableEq, Repr

/-- The bit of F that a flag is (10_state.md R26). -/
def Flag.bit : Flag → Nat
  | .less => 0
  | .equal => 1
  | .carry => 2
  | .borrow => 3

/-- The flag's bit of a value of F. -/
def flagOf (g : Flag) (f : Byte) : Bool := f.getLsbD g.bit

/-- A value of F with one flag written and the other seven bits kept (10_state.md R28; 00_scope.md R9). -/
def withFlag (g : Flag) (v : Bool) (f : Byte) : Byte :=
  let mask : Byte := BitVec.twoPow 8 g.bit
  if v then f ||| mask else f &&& ~~~mask

/-- `cmp(a, b)`: LESS and EQUAL, from the signed 16-bit difference of the zero-extended operands (46_alu.md R190). -/
def aluCmp (a b : Byte) : Bool × Bool :=
  let d : Int := (a.setWidth 16 - b.setWidth 16).toInt
  (decide (d < 0), decide (d = 0))

/-- `adc(a, b, cin)`: the sum modulo 256, and whether it was 256 or more (46_alu.md R191). -/
def aluAdc (a b : Byte) (cin : Bool) : Byte × Bool :=
  let s : Nat := a.toNat + b.toNat + cin.toNat
  (BitVec.ofNat 8 s, decide (256 ≤ s))

/-- `sbb(a, b, bin)`: the difference modulo 256, and whether it was negative (46_alu.md R192). -/
def aluSbb (a b : Byte) (bin : Bool) : Byte × Bool :=
  let d : Int := (a.toNat : Int) - (b.toNat : Int) - (bin.toNat : Int)
  (BitVec.ofInt 8 d, decide (d < 0))

/-- `and(a, b)` (46_alu.md R193). -/
def aluAnd (a b : Byte) : Byte := a &&& b

/-- `or(a, b)` (46_alu.md R193). -/
def aluOr (a b : Byte) : Byte := a ||| b

/-- `nor(a, b)`: the or, inverted within 8 bits (46_alu.md R193). -/
def aluNor (a b : Byte) : Byte := ~~~(a ||| b)

end Sys2Proof.Machine
end

