-- ==== Sys2Proof/Machine/Memory.lean ====
section
/-! DEFINITION. Memory as a list of cells, bank routing (20_memory.md R53), the addressable range (R54), and reading
and writing one cell of the machine. -/

namespace Sys2Proof.Machine

/-- The byte in cell `k`, an unlisted cell reading as `d`. -/
def memGet (d : Byte) (k : Nat) : Memory → Byte
  | [] => d
  | c :: rest => if c.1 = k then c.2 else memGet d k rest

/-- Write `v` into cell `k`, keeping the canonical form: writing what an unlisted cell reads as removes the entry. -/
def memSet (d : Byte) (k : Nat) (v : Byte) : Memory → Memory
  | [] => if v = d then [] else [(k, v)]
  | c :: rest =>
    if k < c.1 then (if v = d then c :: rest else (k, v) :: c :: rest)
    else if c.1 = k then (if v = d then rest else (k, v) :: rest)
    else c :: memSet d k v rest

/-- The address lies in the banked window (20_memory.md R53). -/
def inWindow (p : Params) (a : Addr) : Bool :=
  decide (p.bankBase.toNat ≤ a.toNat) && decide (a.toNat < p.bankBase.toNat + p.bankSize)

/-- The number of the cell that an address reaches while a bank is active (20_memory.md R53, `route`): a common
address is its own cell in every bank, a window address has one cell per bank, and no two cells share a number. -/
def cellKey (p : Params) (bank : Byte) (a : Addr) : Nat :=
  if inWindow p a then bank.toNat * 0x10000 + a.toNat else a.toNat

/-- MAPPED(a): the address is inside the addressable range (20_memory.md R54). -/
def mapped (p : Params) (a : Addr) : Bool :=
  !p.unmapped.any fun r => decide (r.1.toNat ≤ a.toNat) && decide (a.toNat ≤ r.2.toNat)

/-- The byte that address `a` reaches while bank `k` is active. -/
def State.readAs (s : State) (k : Byte) (a : Addr) : Byte :=
  memGet s.params.memReset (cellKey s.params k a) s.mem

/-- The byte that address `a` reaches through the active bank: `route(a).value` of 20_memory.md R55. -/
def State.peek (s : State) (a : Addr) : Byte := s.readAs s.bank a

/-- Store a byte in the cell that address `a` reaches through the active bank: `route(a).value <- v` of 20_memory.md
R56. -/
def State.poke (s : State) (a : Addr) (v : Byte) : State :=
  { s with mem := memSet s.params.memReset (cellKey s.params s.bank a) v s.mem }

/-- Store bytes at an address and the ones after it, modulo 2^16. -/
def State.pokeAll (s : State) (a : Addr) : List Byte → State
  | [] => s
  | v :: rest => (s.poke a v).pokeAll (a + 1) rest

end Sys2Proof.Machine
end

