-- ==== Sys2Proof/Machine/HostOps.lean ====
section
/-! DEFINITION. What the host may do between two atomic operations of the core (20_memory.md R70; 45_io.md R177), the
turn the core gives it (R66), and boot (70_reset_and_hazards.md R262). -/

namespace Sys2Proof.Machine

/-- What a device hook may read of the core (45_io.md R178). -/
def State.snapshot (s : State) : CoreSnapshot := { regs := s.regs, pc := s.pc, sp := s.sp }

/-- Record a call of a device hook. -/
def State.logCall (s : State) (c : BusCall) : State := { s with busLog := c :: s.busLog }

/-- The first device in registration order whose id is the port (45_io.md R171). -/
def findDevice (port : Byte) : List Device → Option Device
  | [] => none
  | d :: rest => if d.port = port then some d else findDevice port rest

/-- The registry without the first device at the port (log entry 8). -/
def dropDevice (port : Byte) : List Device → List Device
  | [] => []
  | d :: rest => if d.port = port then rest else d :: dropDevice port rest

/-- A host write of one byte. Outside the addressable range it fails to the host and changes nothing (20_memory.md
R54; log entry 9). -/
def hostSet (a : Addr) (v : Byte) (s : State) : State :=
  if mapped s.params a then s.poke a v else s

/-- A host selection of the bank: a legal id only (20_memory.md R70; log entry 9). -/
def hostSelectBank (k : Byte) (s : State) : State :=
  if k.toNat < s.params.numBanks then { s with bank := k } else s

/-- Register a device at the end of the registry. -/
def addDevice (d : Device) (s : State) : State := { s with devices := s.devices ++ [d] }

/-- Registration under the default id, refused when the counter would pass 255 (45_io.md R177). -/
def hostRegisterDefault (name : String) (s : State) : State :=
  if s.nextPort < 256 then
    addDevice { port := BitVec.ofNat 8 s.nextPort, name := name } { s with nextPort := s.nextPort + 1 }
  else s

/-- Removal: the device's removal hook runs, then its entry leaves the registry (45_io.md R177; log entry 8). -/
def hostRemove (port : Byte) (s : State) : State :=
  match findDevice port s.devices with
  | some d => { s.logCall (.onRemove d s.snapshot) with devices := dropDevice port s.devices }
  | none => s

/-- One operation of a host agent (20_memory.md R70). Reading memory changes nothing (R55). -/
def applyHost (o : HostOp) (s : State) : State :=
  match o with
  | .get _ => s
  | .set a v => hostSet a v s
  | .selectBank k => hostSelectBank k s
  | .registerDefault name => hostRegisterDefault name s
  | .registerAt port name => addDevice { port := port, name := name } s
  | .remove port => hostRemove port s

/-- A batch of host operations, in order. -/
def applyHosts : List HostOp → State → State
  | [], s => s
  | o :: rest, s => applyHosts rest (applyHost o s)

/-- The host's turn before an atomic operation of the core: the next batch of the agenda takes effect. With nothing
on the agenda the host does nothing (20_memory.md R66; log entry 5). -/
def hostTurn (s : State) : State :=
  match s.agenda with
  | [] => s
  | batch :: rest => applyHosts batch { s with agenda := rest }

/-- Boot, up to the first fetch (70_reset_and_hazards.md R261, R262): create the core, write the program image from
PC_RESET on (log entry 20), register the devices. -/
def boot (p : Params) (image : List Byte) (registrations : List HostOp) : State :=
  applyHosts registrations ((State.resetWith p).pokeAll p.pcReset image)

end Sys2Proof.Machine
end

