-- ==== Sys2Proof/Machine/Ops.lean ====
section
/-! DEFINITION. The operations every meaning is made of: registers, the atomic operations on memory, bank and bus
(00_scope.md R9), raising an error, and ending an instruction. -/

namespace Sys2Proof.Machine

/-- The end of a part of a step: a value and the state then, or an error raised in a state (60_exceptions.md R231). -/
inductive Access (α : Type) where
  | done (v : α) (s : State)
  | raised (e : Error) (s : State)

/-- Go on after a part of a step; an error ends the step at once (40_cycle.md R116). -/
def Access.andThen {α β : Type} (x : Access α) (k : α → State → Access β) : Access β :=
  match x with
  | .done v s => k v s
  | .raised e s => .raised e s

/-- `x[i]` (00_scope.md R9). -/
def State.reg (s : State) (i : RegIndex) : Byte := s.regs[i]

/-- `x[i] <- v` (00_scope.md R9). -/
def State.setReg (s : State) (i : RegIndex) (v : Byte) : State := { s with regs := s.regs.set i v }

/-- F, the flags register (10_state.md R26). -/
def State.flagReg (s : State) : Byte := s.reg s.params.regMap.f

/-- `F.<flag>` (00_scope.md R9). -/
def State.flag (s : State) (g : Flag) : Bool := flagOf g s.flagReg

/-- `F.<flag> <- b`: that one bit of F, the other seven kept (10_state.md R28). -/
def State.setFlag (s : State) (g : Flag) (v : Bool) : State :=
  s.setReg s.params.regMap.f (withFlag g v s.flagReg)

/-- `XY = x[Y] : x[X]` (10_state.md R23). -/
def State.xy (s : State) : Addr := joinBytes (s.reg s.params.regMap.y) (s.reg s.params.regMap.x)

/-- `pc <- target`. -/
def State.setPc (s : State) (target : Addr) : State := { s with pc := target }

/-- `sp <- v`. -/
def State.setSp (s : State) (v : Addr) : State := { s with sp := v }

/-- `MemRead(a)`: one atomic read through the active bank, after the host's turn (20_memory.md R55, R66). -/
def memRead (a : Addr) (s : State) : Access Byte :=
  let t := hostTurn s
  if mapped t.params a then .done (t.peek a) t else .raised (.memoryAddress a) t

/-- `MemWrite(a, v)`: one atomic write through the active bank, after the host's turn (20_memory.md R56, R66). -/
def memWrite (a : Addr) (v : Byte) (s : State) : Access Unit :=
  let t := hostTurn s
  if mapped t.params a then .done () (t.poke a v) else .raised (.memoryAddress a) t

/-- `bank <- k`: one atomic bank selection, after the host's turn (20_memory.md R63, R64). -/
def selectBank (k : Byte) (s : State) : State := { hostTurn s with bank := k }

/-- `BusReceive(port)` (45_io.md R171): after the host's turn the device is looked up and its `receive` called; while
the hook runs the host has a turn (R178; log entry 15); the byte is the device's, a free value (log entry 6). -/
def busReceive (port : Byte) (s : State) : Access Byte :=
  let t := hostTurn s
  match findDevice port t.devices with
  | none => .raised (.deviceNotPresent port) t
  | some d =>
    let u := hostTurn (t.logCall (.receive d t.snapshot))
    .done (Config.deviceAnswer u.busLog) u

/-- `BusSend(port, v)` (45_io.md R172): as `busReceive`, with the device's `send` called and no answer. -/
def busSend (port v : Byte) (s : State) : Access Unit :=
  let t := hostTurn s
  match findDevice port t.devices with
  | none => .raised (.deviceNotPresent port) t
  | some d => .done () (hostTurn (t.logCall (.send d t.snapshot v)))

/-- TAKING AN ERROR (40_cycle.md R116; 60_exceptions.md R231, R232): the status becomes `Faulted` with the error and the
`pc` of the failing instruction, which was not advanced; nothing else changes. There is no trap entry and no return
from one (R234, R235). -/
def raise (e : Error) (s : State) : State := { s with status := .faulted { error := e, pc := s.pc } }

/-- The end of an instruction whose handler returned a length or raised an error (40_cycle.md R114, R115, R116): `pc`
moves on by the length modulo 2^16 unless the length is 0. -/
def retire (x : Access Nat) : Host.Outcome State Fault Refusal :=
  match x with
  | .done len s => .next (if len = 0 then s else s.setPc (s.pc + BitVec.ofNat 16 len))
  | .raised e s => .next (raise e s)

/-- The error the decoder's refusal of a window is (30_encoding.md R83, R94). -/
def Error.ofDecode : DecodeError → Error
  | .invalidOperation op => .invalidOperation op
  | .invalidAddressingMode op mode => .invalidAddressingMode op mode

/-- The code of an error kind (60_exceptions.md R230). -/
def Error.code : Error → Nat
  | .invalidOperation _ => 0
  | .invalidAddressingMode _ _ => 1
  | .stackOverflow _ => 2
  | .stackUnderflow _ => 3
  | .memoryAddress _ => 4
  | .memoryBank _ => 4
  | .deviceNotPresent _ => 5
  | .invalidRegister _ => 6

end Sys2Proof.Machine
end

