-- ==== Sys2Proof/Machine/Operands.lean ====
section
/-! DEFINITION. The operand forms of the instructions (30_encoding.md R91, R92): register fields and their check
(R90; 40_cycle.md R112), a register beside an immediate, two registers. -/

namespace Sys2Proof.Machine

/-- The register a field names, none for a field of 8 to 15 (30_encoding.md R90). -/
def regIndex (r : RegField) : Option RegIndex :=
  if h : r.toNat < 8 then some ⟨r.toNat, h⟩ else none

/-- A form with one register field: the field is checked before anything else of the form is done (40_cycle.md
R112). -/
def withReg (r : RegField) (s : State) (k : RegIndex → Access Nat) : Access Nat :=
  match regIndex r with
  | some i => k i
  | none => .raised (.invalidRegister r) s

/-- A form with two register fields: the primary is checked first (40_cycle.md R112). -/
def withRegs (p q : RegField) (s : State) (k : RegIndex → RegIndex → Access Nat) : Access Nat :=
  withReg p s fun i => withReg q s fun j => k i j

/-- A two-operand form whose second operand is an immediate (R1I1): the first operand's register, its value, and the
immediate (46_alu.md R201). -/
def operandsImm (r : RegField) (imm : Byte) (s : State) (k : RegIndex → Byte → Byte → Access Nat) : Access Nat :=
  withReg r s fun i => k i (s.reg i) imm

/-- A two-operand form whose second operand is the secondary register (R2I0); both are read before any write
(40_cycle.md R113; 46_alu.md R201). -/
def operandsReg (p q : RegField) (s : State) (k : RegIndex → Byte → Byte → Access Nat) : Access Nat :=
  withRegs p q s fun i j => k i (s.reg i) (s.reg j)

end Sys2Proof.Machine
end

