-- ==== Sys2Proof/Machine/Alu.lean ====
section
/-! DEFINITION. ADC, SBB, CMP, AND, OR and NOR (46_alu.md). -/

namespace Sys2Proof.Machine

/-- Add with carry into register `i`; the flag is written after the register (46_alu.md R196; 10_state.md R30). -/
def addInto (i : RegIndex) (a b : Byte) (s : State) : State :=
  let r := aluAdc a b (s.flag .carry)
  (s.setReg i r.1).setFlag .carry r.2

/-- Subtract with borrow into register `i`; the flag is written after the register (46_alu.md R197; 10_state.md
R30). -/
def subInto (i : RegIndex) (a b : Byte) (s : State) : State :=
  let r := aluSbb a b (s.flag .borrow)
  (s.setReg i r.1).setFlag .borrow r.2

/-- Compare: LESS and EQUAL, both every time, and no register (46_alu.md R195). -/
def compareFlags (a b : Byte) (s : State) : State :=
  let r := aluCmp a b
  (s.setFlag .less r.1).setFlag .equal r.2

/-- ADC R1I1 (46_alu.md R196). -/
def execAdcImm (ra : RegField) (imm : Byte) (s : State) : Host.Outcome State Fault Refusal :=
  retire (operandsImm ra imm s fun i a b => .done 3 (addInto i a b s))

/-- ADC R2I0 (46_alu.md R196). -/
def execAdcReg (ra rb : RegField) (s : State) : Host.Outcome State Fault Refusal :=
  retire (operandsReg ra rb s fun i a b => .done 2 (addInto i a b s))

/-- SBB R1I1 (46_alu.md R197). -/
def execSbbImm (ra : RegField) (imm : Byte) (s : State) : Host.Outcome State Fault Refusal :=
  retire (operandsImm ra imm s fun i a b => .done 3 (subInto i a b s))

/-- SBB R2I0 (46_alu.md R197). -/
def execSbbReg (ra rb : RegField) (s : State) : Host.Outcome State Fault Refusal :=
  retire (operandsReg ra rb s fun i a b => .done 2 (subInto i a b s))

/-- CMP R1I1 (46_alu.md R195). -/
def execCmpImm (ra : RegField) (imm : Byte) (s : State) : Host.Outcome State Fault Refusal :=
  retire (operandsImm ra imm s fun _ a b => .done 3 (compareFlags a b s))

/-- CMP R2I0 (46_alu.md R195). -/
def execCmpReg (ra rb : RegField) (s : State) : Host.Outcome State Fault Refusal :=
  retire (operandsReg ra rb s fun _ a b => .done 2 (compareFlags a b s))

/-- AND R1I1 (46_alu.md R198). -/
def execAndImm (ra : RegField) (imm : Byte) (s : State) : Host.Outcome State Fault Refusal :=
  retire (operandsImm ra imm s fun i a b => .done 3 (s.setReg i (aluAnd a b)))

/-- AND R2I0 (46_alu.md R198). -/
def execAndReg (ra rb : RegField) (s : State) : Host.Outcome State Fault Refusal :=
  retire (operandsReg ra rb s fun i a b => .done 2 (s.setReg i (aluAnd a b)))

/-- OR R1I1 (46_alu.md R199). -/
def execOrImm (ra : RegField) (imm : Byte) (s : State) : Host.Outcome State Fault Refusal :=
  retire (operandsImm ra imm s fun i a b => .done 3 (s.setReg i (aluOr a b)))

/-- OR R2I0 (46_alu.md R199). -/
def execOrReg (ra rb : RegField) (s : State) : Host.Outcome State Fault Refusal :=
  retire (operandsReg ra rb s fun i a b => .done 2 (s.setReg i (aluOr a b)))

/-- NOR R1I1 (46_alu.md R200). -/
def execNorImm (ra : RegField) (imm : Byte) (s : State) : Host.Outcome State Fault Refusal :=
  retire (operandsImm ra imm s fun i a b => .done 3 (s.setReg i (aluNor a b)))

/-- NOR R2I0 (46_alu.md R200). -/
def execNorReg (ra rb : RegField) (s : State) : Host.Outcome State Fault Refusal :=
  retire (operandsReg ra rb s fun i a b => .done 2 (s.setReg i (aluNor a b)))

end Sys2Proof.Machine
end

