-- ==== Sys2Proof/Machine/Bank.lean ====
section
/-! DEFINITION. BANK (47_bank.md). -/

namespace Sys2Proof.Machine

/-- Select a bank, or raise for an id that is not configured, `bank` then unchanged (47_bank.md R220, R221; log entry
21). -/
def switchBank (k : Byte) (s : State) : Access Nat :=
  if s.params.numBanks ≤ k.toNat then .raised (.memoryBank k) s else .done 2 (selectBank k s)

/-- BANK R1I0 (47_bank.md R220). -/
def execBankReg (rs : RegField) (s : State) : Host.Outcome State Fault Refusal :=
  retire (withReg rs s fun i => switchBank (s.reg i) s)

/-- BANK R0I1 (47_bank.md R221). -/
def execBankImm (imm : Byte) (s : State) : Host.Outcome State Fault Refusal :=
  retire (switchBank imm s)

end Sys2Proof.Machine
end

