-- ==== Sys2Proof/Machine/Branch.lean ====
section
/-! DEFINITION. JNZ (44_branch.md), the only control transfer. -/

namespace Sys2Proof.Machine

/-- Jump to XY when the condition byte is not 0, with length 0; else length 2 and `pc` left alone (44_branch.md R160,
R163). -/
def branchOn (c : Byte) (s : State) : Access Nat :=
  if c = 0 then .done 2 s else .done 0 (s.setPc s.xy)

/-- The condition byte of JNZ R0I1 under JNZ_IMM_COND (44_branch.md R161). -/
def jnzImmCondition (cond : JnzImmCond) (imm : Byte) : Byte :=
  match cond with
  | .imm => imm
  | .one => 1

/-- The handler of JNZ R1I0 (44_branch.md R160). -/
def jnzReg (rc : RegField) (s : State) : Access Nat :=
  withReg rc s fun i => branchOn (s.reg i) s

/-- The handler of JNZ R0I1 (44_branch.md R161). -/
def jnzImm (imm : Byte) (s : State) : Access Nat :=
  branchOn (jnzImmCondition s.params.jnzImmCond imm) s

/-- JNZ R1I0 (44_branch.md R160). -/
def execJnzReg (rc : RegField) (s : State) : Host.Outcome State Fault Refusal :=
  retire (jnzReg rc s)

/-- JNZ R0I1 (44_branch.md R161). -/
def execJnzImm (imm : Byte) (s : State) : Host.Outcome State Fault Refusal :=
  retire (jnzImm imm s)

end Sys2Proof.Machine
end

