-- ==== Sys2Proof/Machine/Io.lean ====
section
/-! DEFINITION. IN and OUT (45_io.md). -/

namespace Sys2Proof.Machine

/-- Read a byte from the device at a port into a register (45_io.md R173, R174). -/
def inByte (i : RegIndex) (port : Byte) (len : Nat) (s : State) : Access Nat :=
  (busReceive port s).andThen fun v t => .done len (t.setReg i v)

/-- Send a byte to the device at a port (45_io.md R175, R176). -/
def outByte (v port : Byte) (len : Nat) (s : State) : Access Nat :=
  (busSend port v s).andThen fun _ t => .done len t

/-- IN R1I1 (45_io.md R173). -/
def execInImm (rd : RegField) (port : Byte) (s : State) : Host.Outcome State Fault Refusal :=
  retire (withReg rd s fun i => inByte i port 3 s)

/-- IN R2I0 (45_io.md R174): the port is read before the destination is written. -/
def execInReg (rd rp : RegField) (s : State) : Host.Outcome State Fault Refusal :=
  retire (withRegs rd rp s fun i j => inByte i (s.reg j) 2 s)

/-- OUT R1I1 (45_io.md R175). -/
def execOutImm (rs : RegField) (port : Byte) (s : State) : Host.Outcome State Fault Refusal :=
  retire (withReg rs s fun i => outByte (s.reg i) port 3 s)

/-- OUT R2I0 (45_io.md R176). -/
def execOutReg (rs rp : RegField) (s : State) : Host.Outcome State Fault Refusal :=
  retire (withRegs rs rp s fun i j => outByte (s.reg i) (s.reg j) 2 s)

end Sys2Proof.Machine
end

