-- ==== Sys2Proof/Machine/LoadStore.lean ====
section
/-! DEFINITION. LW and SW (42_load_store.md). -/

namespace Sys2Proof.Machine

/-- Load the byte at an address into a register (42_load_store.md R140, R141). -/
def loadByte (i : RegIndex) (ea : Addr) (len : Nat) (s : State) : Access Nat :=
  (memRead ea s).andThen fun v t => .done len (t.setReg i v)

/-- Store a register into the byte at an address (42_load_store.md R142, R143). -/
def storeByte (i : RegIndex) (ea : Addr) (len : Nat) (s : State) : Access Nat :=
  (memWrite ea (s.reg i) s).andThen fun _ t => .done len t

/-- LW R1I0 (42_load_store.md R140): the address is the pair before the load. -/
def execLwPair (rd : RegField) (s : State) : Host.Outcome State Fault Refusal :=
  retire (withReg rd s fun i => loadByte i s.xy 2 s)

/-- LW R1I1 (42_load_store.md R141). -/
def execLwAbs (rd : RegField) (addr : Addr) (s : State) : Host.Outcome State Fault Refusal :=
  retire (withReg rd s fun i => loadByte i addr 4 s)

/-- SW R1I0 (42_load_store.md R142). -/
def execSwPair (rs : RegField) (s : State) : Host.Outcome State Fault Refusal :=
  retire (withReg rs s fun i => storeByte i s.xy 2 s)

/-- SW R1I1 (42_load_store.md R143). -/
def execSwAbs (rs : RegField) (addr : Addr) (s : State) : Host.Outcome State Fault Refusal :=
  retire (withReg rs s fun i => storeByte i addr 4 s)

end Sys2Proof.Machine
end

