-- ==== Sys2Proof/Machine/Mov.lean ====
section
/-! DEFINITION. MOV (41_mov.md). -/

namespace Sys2Proof.Machine

/-- The handler of MOV R1I1 (41_mov.md R130). -/
def movImm (rd : RegField) (imm : Byte) (s : State) : Access Nat :=
  withReg rd s fun i => .done 3 (s.setReg i imm)

/-- The handler of MOV R2I0 (41_mov.md R131). -/
def movReg (rd rs : RegField) (s : State) : Access Nat :=
  withRegs rd rs s fun i j => .done 2 (s.setReg i (s.reg j))

/-- MOV R1I1 (41_mov.md R130). -/
def execMovImm (rd : RegField) (imm : Byte) (s : State) : Host.Outcome State Fault Refusal :=
  retire (movImm rd imm s)

/-- MOV R2I0 (41_mov.md R131). -/
def execMovReg (rd rs : RegField) (s : State) : Host.Outcome State Fault Refusal :=
  retire (movReg rd rs s)

end Sys2Proof.Machine
end

