-- ==== Sys2Proof/Machine/Stack.lean ====
section
/-! DEFINITION. PUSH and POP (43_stack.md): the stack grows upward and `sp` is the next free cell. -/

namespace Sys2Proof.Machine

/-- Push a byte: the limit is checked before the write (43_stack.md R150, R151). -/
def pushByte (v : Byte) (s : State) : Access Nat :=
  if s.params.stackEnd.toNat ≤ s.sp.toNat then .raised (.stackOverflow s.sp) s
  else (memWrite s.sp v s).andThen fun _ t => .done 2 (t.setSp (s.sp + 1))

/-- Pop a byte into a register: the limit is checked first; the read and the clearing write are two operations
(43_stack.md R152). -/
def popByte (i : RegIndex) (s : State) : Access Nat :=
  if s.sp.toNat ≤ s.params.stack.toNat then .raised (.stackUnderflow s.sp) s
  else
    (memRead (s.sp - 1) s).andThen fun v t =>
    (memWrite (s.sp - 1) 0 t).andThen fun _ u =>
    .done 2 ((u.setReg i v).setSp (s.sp - 1))

/-- PUSH R1I0 (43_stack.md R150). -/
def execPushReg (rs : RegField) (s : State) : Host.Outcome State Fault Refusal :=
  retire (withReg rs s fun i => pushByte (s.reg i) s)

/-- PUSH R0I1 (43_stack.md R151). -/
def execPushImm (imm : Byte) (s : State) : Host.Outcome State Fault Refusal :=
  retire (pushByte imm s)

/-- POP R1I0 (43_stack.md R152). -/
def execPopReg (rd : RegField) (s : State) : Host.Outcome State Fault Refusal :=
  retire (withReg rd s fun i => popByte i s)

end Sys2Proof.Machine
end

