-- ==== Sys2Proof/Machine/Dispatch.lean ====
section
/-! DEFINITION. The dispatch: one arm per row of spec/opcode_table.json. -/

namespace Sys2Proof.Machine

/-- What an instruction does (40_cycle.md R113, R120), its register check and the advance of `pc` included (R112,
R114). The run status is not asked here: `step` asks it (log entry 14). -/
def exec (i : Instr) (s : State) : Host.Outcome State Fault Refusal :=
  match i with
  | .movImm rd imm => Sys2Proof.Machine.execMovImm rd imm s
  | .movReg rd rs => Sys2Proof.Machine.execMovReg rd rs s
  | .jnzReg rc => Sys2Proof.Machine.execJnzReg rc s
  | .jnzImm imm => Sys2Proof.Machine.execJnzImm imm s
  | .lwPair rd => Sys2Proof.Machine.execLwPair rd s
  | .lwAbs rd addr => Sys2Proof.Machine.execLwAbs rd addr s
  | .swPair rs => Sys2Proof.Machine.execSwPair rs s
  | .swAbs rs addr => Sys2Proof.Machine.execSwAbs rs addr s
  | .pushReg rs => Sys2Proof.Machine.execPushReg rs s
  | .pushImm imm => Sys2Proof.Machine.execPushImm imm s
  | .popReg rd => Sys2Proof.Machine.execPopReg rd s
  | .inImm rd port => Sys2Proof.Machine.execInImm rd port s
  | .inReg rd rp => Sys2Proof.Machine.execInReg rd rp s
  | .outImm rs port => Sys2Proof.Machine.execOutImm rs port s
  | .outReg rs rp => Sys2Proof.Machine.execOutReg rs rp s
  | .adcImm ra imm => Sys2Proof.Machine.execAdcImm ra imm s
  | .adcReg ra rb => Sys2Proof.Machine.execAdcReg ra rb s
  | .sbbImm ra imm => Sys2Proof.Machine.execSbbImm ra imm s
  | .sbbReg ra rb => Sys2Proof.Machine.execSbbReg ra rb s
  | .cmpImm ra imm => Sys2Proof.Machine.execCmpImm ra imm s
  | .cmpReg ra rb => Sys2Proof.Machine.execCmpReg ra rb s
  | .andImm ra imm => Sys2Proof.Machine.execAndImm ra imm s
  | .andReg ra rb => Sys2Proof.Machine.execAndReg ra rb s
  | .orImm ra imm => Sys2Proof.Machine.execOrImm ra imm s
  | .orReg ra rb => Sys2Proof.Machine.execOrReg ra rb s
  | .norImm ra imm => Sys2Proof.Machine.execNorImm ra imm s
  | .norReg ra rb => Sys2Proof.Machine.execNorReg ra rb s
  | .bankReg rs => Sys2Proof.Machine.execBankReg rs s
  | .bankImm imm => Sys2Proof.Machine.execBankImm imm s

end Sys2Proof.Machine
end

