-- ==== Sys2Proof/Machine/Fetch.lean ====
section
/-! DEFINITION. Fetching the window at `pc` (40_cycle.md R110). -/

namespace Sys2Proof.Machine

/-- Four separate `MemRead`s at `pc` to `pc + 3` modulo 2^16, in order, whatever the instruction's length; an error on
any of them ends the step before decode (40_cycle.md R110). -/
def fetch (s : State) : Access Window :=
  (memRead s.pc s).andThen fun b0 s0 =>
  (memRead (s.pc + 1) s0).andThen fun b1 s1 =>
  (memRead (s.pc + 2) s1).andThen fun b2 s2 =>
  (memRead (s.pc + 3) s2).andThen fun b3 s3 =>
  .done { b0 := b0, b1 := b1, b2 := b2, b3 := b3 } s3

end Sys2Proof.Machine
end

