-- ==== Sys2Proof/Machine/Step.lean ====
section
/-! DEFINITION. The step (40_cycle.md R117). -/

namespace Sys2Proof.Machine

/-- One step of the core: fetch, decode, execute, advance. A `Faulted` core has none (40_cycle.md R117). -/
def step (s : State) : Host.Outcome State Fault Refusal :=
  match s.status with
  | .faulted record => .fault (.coreFaulted record)
  | .running =>
    match fetch s with
    | .raised e t => .next (raise e t)
    | .done w t =>
      match decodeWith t.params.opMap w with
      | .error e => .next (raise (Error.ofDecode e) t)
      | .form i => exec i t

/-- The state with an instruction word of the opcode table stored where the next step fetches: its bytes, later bytes
of the window 0, at `pc` to `pc + 3` (log entry 12). -/
def State.withFetchWord (s : State) (nbits w : Nat) : State :=
  s.pokeAll s.pc [tableByte nbits w 0, tableByte nbits w 1, tableByte nbits w 2, tableByte nbits w 3]

end Sys2Proof.Machine
end

