-- ==== Sys2Proof/Safety.lean ====
section
/-! DEFINITION. The terms claims are stated in: the invariant of the machine, what a step leaves alone, and how a run
ends (70_reset_and_hazards.md R266). -/

namespace Sys2Proof.Machine

/-- The cell number is that of a cell the memory controller has: a common cell, or a window cell of a configured bank
(20_memory.md R53). -/
def cellExists (p : Params) (key : Nat) : Bool :=
  if inWindow p (BitVec.ofNat 16 key) then decide (key < p.numBanks * 0x10000) else decide (key < 0x10000)

/-- The invariant: the parameters meet their constraints (00_scope.md R6), `sp` lies in `[STACK, STACK_END]` (10_state.md
R32), the active bank is configured (R34), memory has its canonical form and lists only cells that exist (20_memory.md
R53), and the default port counter has not passed 256 (45_io.md R177). -/
abbrev State.Inv (s : State) : Prop :=
  s.params.wf = true
    ∧ s.params.stack.toNat ≤ s.sp.toNat ∧ s.sp.toNat ≤ s.params.stackEnd.toNat
    ∧ s.bank.toNat < s.params.numBanks
    ∧ Memory.wf s.params.memReset s.mem
    ∧ (∀ c ∈ s.mem, cellExists s.params c.1 = true)
    ∧ s.nextPort ≤ 256

/-- Every register of `t` but register `i` holds what it holds in `s`. -/
def SameRegsBut (i : RegIndex) (s t : State) : Prop := ∀ j, j ≠ i → t.reg j = s.reg j

/-- Every register of `t` holds what it holds in `s`. -/
def SameRegs (s t : State) : Prop := ∀ j, t.reg j = s.reg j

/-- Every byte of memory, in every bank, reads in `t` as in `s`. -/
def SameMemory (s t : State) : Prop := ∀ k a, t.readAs k a = s.readAs k a

/-- Every byte of memory, in every bank, reads in `t` as in `s`, but for the byte that address `ea` reaches through the
active bank of `s`, which reads as `v`: a window address stands for the active bank's cell alone, a common address for
the one cell of every bank (20_memory.md R53). -/
def StoresByte (s t : State) (ea : Addr) (v : Byte) : Prop :=
  ∀ k a, t.readAs k a = if a = ea ∧ (k = s.bank ∨ inWindow s.params ea = false) then v else s.readAs k a

/-- The run status, the parameters, and what the host and the device bus hold are those of `s`. -/
def SameControl (s t : State) : Prop :=
  t.status = s.status ∧ t.params = s.params ∧ t.devices = s.devices ∧ t.nextPort = s.nextPort
    ∧ t.busLog = s.busLog ∧ t.agenda = s.agenda

/-- A step or an instruction answers a next state, and it is as `P` says. -/
def NextIs (o : Host.Outcome State Fault Refusal) (P : State → Prop) : Prop := ∃ t, o = .next t ∧ P t

/-- The register field that names register `i`; every valid field is one of these (30_encoding.md R90). -/
def fieldOf (i : RegIndex) : RegField := BitVec.ofNat 4 i.val

/-- The result of a form whose one effect is on register `i`: that register is `v`, `pc` has moved on by `len` modulo
2^16, and nothing else has changed. The core's own state is compared with `s`, the state before the instruction; bank,
memory and bus with `h`, which is `s` too unless the host had a turn within the instruction. -/
def RegisterResult (s h t : State) (i : RegIndex) (v : Byte) (len : Addr) : Prop :=
  t.reg i = v ∧ SameRegsBut i s t ∧ t.pc = s.pc + len ∧ t.sp = s.sp
    ∧ t.bank = h.bank ∧ SameMemory h t ∧ SameControl h t

/-- The result of a form whose one effect is a byte stored at `ea` through the active bank, with `sp` then as given. -/
def StoreResult (s h t : State) (ea : Addr) (v : Byte) (sp len : Addr) : Prop :=
  StoresByte h t ea v ∧ SameRegs s t ∧ t.pc = s.pc + len ∧ t.sp = sp ∧ t.bank = h.bank ∧ SameControl h t

/-- The result of a form that changes nothing of the core but `pc`. -/
def PcResult (s h t : State) (pc : Addr) : Prop :=
  t.pc = pc ∧ SameRegs s t ∧ t.sp = s.sp ∧ t.bank = h.bank ∧ SameMemory h t ∧ SameControl h t

/-- The result of ADC or SBB into register `i` with value `res`, writing flag `g` (10_state.md R28, R30): register `i`
holds `res`; F holds what it held (or `res`, where F is the destination) but for the bit of `g`, which is `out`; every
other register, and all else but `pc`, is unchanged. -/
def ArithResult (s t : State) (i : RegIndex) (res : Byte) (g : Flag) (out : Bool) (len : Addr) : Prop :=
  (i ≠ s.params.regMap.f → t.reg i = res)
    ∧ t.flag g = out
    ∧ (∀ n, n ≠ g.bit → t.flagReg.getLsbD n = (if i = s.params.regMap.f then res else s.flagReg).getLsbD n)
    ∧ (∀ j, j ≠ i → j ≠ s.params.regMap.f → t.reg j = s.reg j)
    ∧ t.pc = s.pc + len ∧ t.sp = s.sp ∧ t.bank = s.bank ∧ SameMemory s t ∧ SameControl s t

/-- The result of CMP (46_alu.md R195): LESS and EQUAL of F are as given, its other six bits and every other register
are unchanged, and so is all else but `pc`. -/
def CompareResult (s t : State) (less equal : Bool) (len : Addr) : Prop :=
  t.flag .less = less ∧ t.flag .equal = equal
    ∧ (∀ n, 2 ≤ n → t.flagReg.getLsbD n = s.flagReg.getLsbD n)
    ∧ SameRegsBut s.params.regMap.f s t
    ∧ t.pc = s.pc + len ∧ t.sp = s.sp ∧ t.bank = s.bank ∧ SameMemory s t ∧ SameControl s t

/-- A register field above 7 in a form with one register field raises InvalidRegister and does nothing else
(40_cycle.md R112). -/
def RaisesOnBadField (f : RegField → Instr) : Prop :=
  ∀ (r : RegField) (s : State), 8 ≤ r.toNat → exec (f r) s = .next (raise (.invalidRegister r) s)

/-- A register field above 7 in a form with two register fields raises InvalidRegister, the primary first
(40_cycle.md R112). -/
def RaisesOnBadFields (f : RegField → RegField → Instr) : Prop :=
  ∀ (p q : RegField) (s : State),
    (8 ≤ p.toNat → exec (f p q) s = .next (raise (.invalidRegister p) s))
      ∧ (p.toNat < 8 → 8 ≤ q.toNat → exec (f p q) s = .next (raise (.invalidRegister q) s))

/-- The modes an operation supports (30_encoding.md R93). -/
def supportsMode (o : Operation) (m : AddressingMode) : Bool :=
  match o with
  | .mov | .input | .output | .adc | .sbb | .cmp | .and | .or | .nor => m = .r1i1 || m = .r2i0
  | .jnz | .push | .bank => m = .r1i0 || m = .r0i1
  | .lw | .sw => m = .r1i0 || m = .r1i1
  | .pop => m = .r1i0

/-- The operations that write a destination register (10_state.md R25). -/
def writesDestination (o : Operation) : Bool :=
  match o with
  | .mov | .lw | .pop | .input | .adc | .sbb | .and | .or | .nor => true
  | .jnz | .sw | .push | .output | .cmp | .bank => false

/-- The operations with a flag side effect (10_state.md R27). -/
def writesFlags (o : Operation) : Bool :=
  match o with
  | .cmp | .adc | .sbb => true
  | _ => false

/-- The destination field of an instruction: its first register field, where the operation writes one (30_encoding.md
R92; 10_state.md R25). -/
def destination (i : Instr) : Option RegField :=
  if writesDestination i.operation then i.regFields.head? else none

/-- The address an instruction stores to, none for one that stores nothing (20_memory.md R63): as its meaning computes
it. -/
def storeAddress (i : Instr) (s : State) : Option Addr :=
  match i with
  | .swPair _ => some s.xy
  | .swAbs _ addr => some addr
  | .pushReg _ => some s.sp
  | .pushImm _ => some s.sp
  | .popReg _ => some (s.sp - 1)
  | _ => none

/-- The byte an instruction stores at its `storeAddress`, none for one that stores nothing or whose register field is
invalid (42_load_store.md R142, R143; 43_stack.md R150 to R152). -/
def storedByte (i : Instr) (s : State) : Option Byte :=
  match i with
  | .swPair rs => (regIndex rs).map s.reg
  | .swAbs rs _ => (regIndex rs).map s.reg
  | .pushReg rs => (regIndex rs).map s.reg
  | .pushImm imm => some imm
  | .popReg _ => some 0
  | _ => none

/-- With the four addresses at `pc` mapped, the next fetch of `t` reads `v` at `ea` and at every other address what `s`
holds there, and changes nothing (20_memory.md R69; 70_reset_and_hazards.md R265). -/
def FetchSees (s t : State) (ea : Addr) (v : Byte) : Prop :=
  mapped t.params t.pc = true → mapped t.params (t.pc + 1) = true → mapped t.params (t.pc + 2) = true →
  mapped t.params (t.pc + 3) = true →
    ∃ w, fetch t = .done w t
      ∧ w.b0 = (if ea = t.pc then v else s.peek t.pc)
      ∧ w.b1 = (if ea = t.pc + 1 then v else s.peek (t.pc + 1))
      ∧ w.b2 = (if ea = t.pc + 2 then v else s.peek (t.pc + 2))
      ∧ w.b3 = (if ea = t.pc + 3 then v else s.peek (t.pc + 3))

/-- `d` is the first device in registration order whose id is the port (45_io.md R171, R172). -/
def FirstAt (port : Byte) (d : Device) (devices : List Device) : Prop :=
  ∃ before after, devices = before ++ d :: after ∧ d.port = port ∧ ∀ e ∈ before, e.port ≠ port

/-- Instructions executed one after the other, as long as each answers a next state whose status is `Running`. -/
def execAll : List Instr → State → Option State
  | [], s => some s
  | i :: rest, s =>
    match exec i s with
    | .next t => if t.status = .running then execAll rest t else none
    | _ => none

/-- `n` pops into register `i`, with the bytes popped, in order. -/
def popAll (i : RegIndex) : Nat → State → Option (List Byte × State)
  | 0, s => some ([], s)
  | n + 1, s =>
    match exec (.popReg (fieldOf i)) s with
    | .next t => if t.status = .running then (popAll i n t).map fun r => (t.reg i :: r.1, r.2) else none
    | _ => none

/-- How a run stands after a number of steps (70_reset_and_hazards.md R266). -/
inductive RunEnd where
  /-- ended by an error; never a successful end -/
  | faulted (record : FaultRecord) (s : State)
  /-- ended at STOP_PC, whose instruction is not executed -/
  | stopped (s : State)
  /-- not ended -/
  | going (s : State)
  /-- the step had no meaning; never in this model -/
  | refused (r : Refusal)

/-- The end, if any, of a run of at most `n` steps (70_reset_and_hazards.md R266; log entry 13). DESIGN CHOICE (log entry
22): the end state is the state the last step left; a host operation after the core's last memory, bank or bus operation
and before the stop or the fault is seen is no part of it, and stays pending in its agenda. -/
def runFor (n : Nat) (s : State) : RunEnd :=
  match s.status with
  | .faulted record => .faulted record s
  | .running =>
    if s.params.stopPc = some s.pc then .stopped s
    else
      match n with
      | 0 => .going s
      | m + 1 =>
        match step s with
        | .next t => runFor m t
        | .fault (.coreFaulted record) => .faulted record s
        | .refused r => .refused r

end Sys2Proof.Machine
end

