-- ==== Sys2Proof/Certificates/Slice0/Obligations.lean ====
section
/-! DEFINITION. The statements for the provers, in the terms of Sys2Proof/Safety.lean.

`hostTurn s` is the host's turn before an atomic operation of the core (20_memory.md R66); it is `s` itself when no
host operation is pending (`s.agenda = []`). That the host's operations come as an agenda is the model's choice (log
entry 5). "The spec's own decision Dn" is an entry of 92_eei_decisions.md: the spec
chose there, the source is silent. -/

open Sys2Proof Sys2Proof.Machine

/-! ## Reset, boot, the invariant -/

/-- Reset leaves what 10_state.md R40 lists, for every choice of the parameters and under the defaults. The values but
`sp` are the spec's own decisions D12, D14, D18 to D21, D24, D30 (log entry 2). -/
def Obligations.ResetLeavesListedValues : Prop :=
  (∀ p : Params,
    (∀ i : RegIndex, (State.resetWith p).reg i = p.regReset[i]) ∧ (State.resetWith p).pc = p.pcReset
      ∧ (State.resetWith p).sp = p.stack ∧ (State.resetWith p).bank = 0
      ∧ (∀ k a, (State.resetWith p).readAs k a = p.memReset)
      ∧ (State.resetWith p).devices = [] ∧ (State.resetWith p).status = .running)
  ∧ (∀ i, State.reset.reg i = 0) ∧ State.reset.pc = 0 ∧ State.reset.sp = 0xFC00 ∧ State.reset.bank = 0
  ∧ (∀ k a, State.reset.readAs k a = 0)

/-- Core creation sets `sp` to STACK (10_state.md R39), and loading an image and registering devices leaves it so. -/
def Obligations.CreatedCoreHasSpAtStack : Prop :=
  ∀ (p : Params) (image : List Byte) (registrations : List HostOp), (boot p image registrations).sp = p.stack

/-- The invariant holds after reset, for all parameters that meet their constraints, the defaults among them. -/
def Obligations.InvariantHoldsAtReset : Prop :=
  (∀ p : Params, p.wf = true → (State.resetWith p).Inv) ∧ State.reset.Inv

/-- Every step keeps the invariant: STACK ≤ `sp` ≤ STACK_END, the active bank configured, memory canonical and within
the cells that exist, the parameters within their constraints. -/
def Obligations.StepKeepsInvariant : Prop :=
  ∀ s t : State, s.Inv → step s = .next t → t.Inv

/-- No step changes a parameter. -/
def Obligations.StepKeepsParameters : Prop :=
  ∀ s t : State, step s = .next t → t.params = s.params

/-! ## The step -/

/-- When the fetched window decodes to an instruction, the step is that instruction's exec, in the state after the
fetch; with no host operation pending and the four addresses mapped, that is the state itself and the window is the
four bytes at `pc` to `pc + 3`. Nothing stands around exec: it moves `pc` itself. -/
def Obligations.StepRunsDecodedInstruction : Prop :=
  (∀ (s t : State) (w : Window) (i : Instr), s.status = .running → fetch s = .done w t →
    decodeWith s.params.opMap w = .form i → step s = exec i t)
  ∧ (∀ (s : State) (i : Instr), s.status = .running → s.agenda = [] →
    mapped s.params s.pc = true → mapped s.params (s.pc + 1) = true → mapped s.params (s.pc + 2) = true →
    mapped s.params (s.pc + 3) = true →
    decodeWith s.params.opMap ⟨s.peek s.pc, s.peek (s.pc + 1), s.peek (s.pc + 2), s.peek (s.pc + 3)⟩ = .form i →
    step s = exec i s)

/-- A running core always answers a next state; a core stops exactly when it is Faulted, with the recorded error; no
step is refused. The spec's own decisions D24, D29. That IN and OUT always answer one is the model's choice: a device
hook is presumed to return and not to re-enter its own port (log entry 15). -/
def Obligations.OnlyFaultedCoreStops : Prop :=
  (∀ s : State, s.status = .running → ∃ t, step s = .next t)
  ∧ (∀ (s : State) (f : Fault), step s = .fault f ↔ ∃ r, s.status = .faulted r ∧ f = .coreFaulted r)
  ∧ (∀ (s : State) (r : Refusal), step s ≠ .refused r)

/-- An error is precise: the record names the failing instruction's address, `pc` stays there, no register, `sp` or
parameter has changed, and with no host operation pending nothing at all has but the status. The spec's own decision
D24. -/
def Obligations.ErrorsArePrecise : Prop :=
  ∀ (s t : State) (r : FaultRecord), s.status = .running → step s = .next t → t.status = .faulted r →
    r.pc = s.pc ∧ t.pc = s.pc ∧ SameRegs s t ∧ t.sp = s.sp ∧ t.params = s.params
      ∧ (s.agenda = [] → t = { s with status := .faulted r })

/-- The errors of fetch and decode come first, in order: an unmapped byte of the window, the lowest first, whatever
the bytes are; then the decoder's error. The spec's own decision D26. -/
def Obligations.FetchErrorsComeBeforeDecodeErrors : Prop :=
  ∀ s : State, s.status = .running → s.agenda = [] →
    (mapped s.params s.pc = false → step s = .next (raise (.memoryAddress s.pc) s))
    ∧ (mapped s.params s.pc = true → mapped s.params (s.pc + 1) = false →
        step s = .next (raise (.memoryAddress (s.pc + 1)) s))
    ∧ (mapped s.params s.pc = true → mapped s.params (s.pc + 1) = true → mapped s.params (s.pc + 2) = false →
        step s = .next (raise (.memoryAddress (s.pc + 2)) s))
    ∧ (mapped s.params s.pc = true → mapped s.params (s.pc + 1) = true → mapped s.params (s.pc + 2) = true →
        mapped s.params (s.pc + 3) = false → step s = .next (raise (.memoryAddress (s.pc + 3)) s))
    ∧ (mapped s.params s.pc = true → mapped s.params (s.pc + 1) = true → mapped s.params (s.pc + 2) = true →
        mapped s.params (s.pc + 3) = true → ∀ e,
        decodeWith s.params.opMap ⟨s.peek s.pc, s.peek (s.pc + 1), s.peek (s.pc + 2), s.peek (s.pc + 3)⟩ = .error e →
        step s = .next (raise (Error.ofDecode e) s))

/-- An instruction that does not raise moves `pc` on by its encoded length modulo 2^16, but for a JNZ whose condition
is not 0, which sets it to XY. -/
def Obligations.PcMovesByLengthOrTakenJump : Prop :=
  ∀ (i : Instr) (s t : State), s.status = .running → exec i s = .next t → t.status = .running →
    t.pc = s.pc + BitVec.ofNat 16 i.length
      ∨ (t.pc = s.xy ∧ ((∃ r j, i = .jnzReg r ∧ regIndex r = some j ∧ s.reg j ≠ 0)
          ∨ ∃ v, i = .jnzImm v ∧ jnzImmCondition s.params.jnzImmCond v ≠ 0))

/-- An instruction with a register field above 7 raises InvalidRegister with the first such field, and does nothing
else. The spec's own decisions D7, D26. -/
def Obligations.IllFormedInstructionRaisesInvalidRegister : Prop :=
  ∀ (i : Instr) (s : State), i.wellFormed = false →
    ∃ r, i.regFields.find? (fun f => !f.valid) = some r ∧ exec i s = .next (raise (.invalidRegister r) s)

/-! ## What instructions leave alone, over all of them -/

/-- A register changes only as the destination of MOV, LW, POP, IN, ADC, SBB, AND, OR, NOR, or as F by the flag side
effect of CMP, ADC, SBB. -/
def Obligations.RegistersChangeOnlyAsListed : Prop :=
  ∀ (i : Instr) (s t : State), exec i s = .next t → ∀ j : RegIndex, t.reg j ≠ s.reg j →
    destination i = some (fieldOf j) ∨ (j = s.params.regMap.f ∧ writesFlags i.operation = true)

/-- Only PUSH and POP move the stack pointer, and by one. The spec's own decision D13. -/
def Obligations.OnlyPushAndPopMoveSp : Prop :=
  ∀ (i : Instr) (s t : State), exec i s = .next t → t.sp ≠ s.sp →
    (i.operation = .push ∧ t.sp = s.sp + 1) ∨ (i.operation = .pop ∧ t.sp = s.sp - 1)

/-- With no host operation pending, only BANK changes the active bank. The spec's own decision D17. -/
def Obligations.OnlyBankInstructionSelectsBank : Prop :=
  ∀ (i : Instr) (s t : State), s.agenda = [] → exec i s = .next t → t.bank ≠ s.bank →
    i.operation = .bank ∧ t.bank.toNat < s.params.numBanks

/-- With no host operation pending, a byte of memory changes only where the instruction stores: at the address SW, PUSH
or POP computes, through the active bank. -/
def Obligations.MemoryChangesOnlyWhereStored : Prop :=
  ∀ (i : Instr) (s t : State), s.agenda = [] → Memory.wf s.params.memReset s.mem → exec i s = .next t →
    ∀ (k : Byte) (b : Addr), t.readAs k b ≠ s.readAs k b →
      storeAddress i s = some b ∧ (k = s.bank ∨ inWindow s.params b = false)

/-! ## MOV, LW, SW -/

/-- MOV R1I1 (41_mov.md R130), whole: its encoding, its effect on every valid register, and its one exception. -/
def Obligations.MovImmediateCopiesByte : Prop :=
  (∀ b1 b2 b3 : Byte, decode ⟨0x02, b1, b2, b3⟩ = .form (.movImm (lowNibble b1) b2))
  ∧ (∀ (s : State) (i : RegIndex) (imm : Byte),
      NextIs (exec (.movImm (fieldOf i) imm) s) fun t => RegisterResult s s t i imm 3)
  ∧ ∀ imm, RaisesOnBadField fun r => .movImm r imm

/-- MOV R2I0: the secondary register is copied into the primary, which of the two it is being the spec's own decision
D11. -/
def Obligations.MovRegisterCopiesRegister : Prop :=
  (∀ b1 b2 b3 : Byte, decode ⟨0x03, b1, b2, b3⟩ = .form (.movReg (lowNibble b1) (highNibble b1)))
  ∧ (∀ (s : State) (i j : RegIndex),
      NextIs (exec (.movReg (fieldOf i) (fieldOf j)) s) fun t => RegisterResult s s t i (s.reg j) 2)
  ∧ RaisesOnBadFields .movReg

/-- LW in both modes (42_load_store.md R140, R141), whole: the register gets the byte at XY or at the absolute address
through the active bank; an unmapped address raises MemoryAccessError and writes no register. -/
def Obligations.LoadCopiesByteToRegister : Prop :=
  (∀ b1 b2 b3 : Byte, decode ⟨0x08, b1, b2, b3⟩ = .form (.lwPair (lowNibble b1))
      ∧ decode ⟨0x0A, b1, b2, b3⟩ = .form (.lwAbs (lowNibble b1) (joinBytes b3 b2)))
  ∧ (∀ (s : State) (i : RegIndex), mapped s.params s.xy = true →
      NextIs (exec (.lwPair (fieldOf i)) s) fun t =>
        RegisterResult s (hostTurn s) t i ((hostTurn s).readAs (hostTurn s).bank s.xy) 2)
  ∧ (∀ (s : State) (i : RegIndex) (ea : Addr), mapped s.params ea = true →
      NextIs (exec (.lwAbs (fieldOf i) ea) s) fun t =>
        RegisterResult s (hostTurn s) t i ((hostTurn s).readAs (hostTurn s).bank ea) 4)
  ∧ (∀ (s : State) (i : RegIndex), mapped s.params s.xy = false →
      exec (.lwPair (fieldOf i)) s = .next (raise (.memoryAddress s.xy) (hostTurn s)))
  ∧ (∀ (s : State) (i : RegIndex) (ea : Addr), mapped s.params ea = false →
      exec (.lwAbs (fieldOf i) ea) s = .next (raise (.memoryAddress ea) (hostTurn s)))
  ∧ RaisesOnBadField .lwPair ∧ ∀ ea, RaisesOnBadField fun r => .lwAbs r ea

/-- SW in both modes (42_load_store.md R142, R143), whole: the byte at XY or at the absolute address becomes the
register's, every other byte of every bank stays; an unmapped address raises MemoryAccessError and nothing is
written. -/
def Obligations.StoreCopiesRegisterToByte : Prop :=
  (∀ b1 b2 b3 : Byte, decode ⟨0x0C, b1, b2, b3⟩ = .form (.swPair (lowNibble b1))
      ∧ decode ⟨0x0E, b1, b2, b3⟩ = .form (.swAbs (lowNibble b1) (joinBytes b3 b2)))
  ∧ (∀ (s : State) (i : RegIndex), Memory.wf s.params.memReset s.mem → mapped s.params s.xy = true →
      NextIs (exec (.swPair (fieldOf i)) s) fun t => StoreResult s (hostTurn s) t s.xy (s.reg i) s.sp 2)
  ∧ (∀ (s : State) (i : RegIndex) (ea : Addr), Memory.wf s.params.memReset s.mem → mapped s.params ea = true →
      NextIs (exec (.swAbs (fieldOf i) ea) s) fun t => StoreResult s (hostTurn s) t ea (s.reg i) s.sp 4)
  ∧ (∀ (s : State) (i : RegIndex), mapped s.params s.xy = false →
      exec (.swPair (fieldOf i)) s = .next (raise (.memoryAddress s.xy) (hostTurn s)))
  ∧ (∀ (s : State) (i : RegIndex) (ea : Addr), mapped s.params ea = false →
      exec (.swAbs (fieldOf i) ea) s = .next (raise (.memoryAddress ea) (hostTurn s)))
  ∧ RaisesOnBadField .swPair ∧ ∀ ea, RaisesOnBadField fun r => .swAbs r ea

/-! ## PUSH, POP -/

/-- PUSH in both modes: below STACK_END the byte is stored at `sp` and `sp` moves up by one; an unmapped `sp` raises
MemoryAccessError with `sp` unchanged. The spec's own decisions D9, D13. -/
def Obligations.PushStoresAtSpAndIncrements : Prop :=
  (∀ (s : State) (i : RegIndex), Memory.wf s.params.memReset s.mem → s.sp.toNat < s.params.stackEnd.toNat →
    mapped s.params s.sp = true →
      NextIs (exec (.pushReg (fieldOf i)) s) fun t => StoreResult s (hostTurn s) t s.sp (s.reg i) (s.sp + 1) 2)
  ∧ (∀ (s : State) (imm : Byte), Memory.wf s.params.memReset s.mem → s.sp.toNat < s.params.stackEnd.toNat →
    mapped s.params s.sp = true →
      NextIs (exec (.pushImm imm) s) fun t => StoreResult s (hostTurn s) t s.sp imm (s.sp + 1) 2)
  ∧ (∀ (s : State) (i : RegIndex) (imm : Byte), s.sp.toNat < s.params.stackEnd.toNat → mapped s.params s.sp = false →
      exec (.pushReg (fieldOf i)) s = .next (raise (.memoryAddress s.sp) (hostTurn s))
        ∧ exec (.pushImm imm) s = .next (raise (.memoryAddress s.sp) (hostTurn s)))

/-- POP above STACK: the register gets the byte below `sp`, that byte is then 0, and `sp` moves down by one. The read
and the clearing write are two operations, with a turn of the host before each. The spec's own decision D13. -/
def Obligations.PopLoadsClearsAndDecrements : Prop :=
  ∀ (s : State) (i : RegIndex), Memory.wf s.params.memReset s.mem → s.params.stack.toNat < s.sp.toNat →
    mapped s.params (s.sp - 1) = true →
      NextIs (exec (.popReg (fieldOf i)) s) fun t =>
        t.reg i = (hostTurn s).readAs (hostTurn s).bank (s.sp - 1) ∧ SameRegsBut i s t
          ∧ StoresByte (hostTurn (hostTurn s)) t (s.sp - 1) 0
          ∧ t.pc = s.pc + 2 ∧ t.sp = s.sp - 1 ∧ t.bank = (hostTurn (hostTurn s)).bank
          ∧ SameControl (hostTurn (hostTurn s)) t

/-- PUSH at or above STACK_END raises StackOverflow, POP at or below STACK raises StackUnderflow, before anything else:
nothing is read or written and the host has no turn; POP from an unmapped cell raises MemoryAccessError. The spec's own
decision D13. -/
def Obligations.StackLimitsRaise : Prop :=
  (∀ (s : State) (i : RegIndex) (imm : Byte), s.params.stackEnd.toNat ≤ s.sp.toNat →
      exec (.pushReg (fieldOf i)) s = .next (raise (.stackOverflow s.sp) s)
        ∧ exec (.pushImm imm) s = .next (raise (.stackOverflow s.sp) s))
  ∧ (∀ (s : State) (i : RegIndex), s.sp.toNat ≤ s.params.stack.toNat →
      exec (.popReg (fieldOf i)) s = .next (raise (.stackUnderflow s.sp) s))
  ∧ (∀ (s : State) (i : RegIndex), s.params.stack.toNat < s.sp.toNat → mapped s.params (s.sp - 1) = false →
      exec (.popReg (fieldOf i)) s = .next (raise (.memoryAddress (s.sp - 1)) (hostTurn s)))

/-- N pushes of immediate bytes and then N pops into one register give the bytes back in reverse order, leave `sp` where it was, leave every cell they
used at 0 and every other byte of memory as it was. The spec's own decision D13. -/
def Obligations.PopsUndoPushesInReverse : Prop :=
  ∀ (vs : List Byte) (i : RegIndex) (s : State), s.status = .running → s.agenda = [] →
    Memory.wf s.params.memReset s.mem → s.params.stack.toNat ≤ s.sp.toNat →
    s.sp.toNat + vs.length ≤ s.params.stackEnd.toNat →
    (∀ n, n < vs.length → mapped s.params (s.sp + BitVec.ofNat 16 n) = true) →
      ∃ t u : State, execAll (vs.map Instr.pushImm) s = some t ∧ popAll i vs.length t = some (vs.reverse, u)
        ∧ t.sp = s.sp + BitVec.ofNat 16 vs.length ∧ u.sp = s.sp
        ∧ (∀ n, n < vs.length → u.peek (s.sp + BitVec.ofNat 16 n) = 0)
        ∧ (∀ k a, (∀ n, n < vs.length → a ≠ s.sp + BitVec.ofNat 16 n) → u.readAs k a = s.readAs k a)

/-- A host write into the cell between POP's read and its clearing write is lost, and POP answers the byte it read. -/
def Obligations.HostWriteInsidePopIsLost : Prop :=
  ∀ (s : State) (i : RegIndex) (v : Byte), s.agenda = [[], [.set (s.sp - 1) v]] →
    Memory.wf s.params.memReset s.mem → s.params.stack.toNat < s.sp.toNat → mapped s.params (s.sp - 1) = true →
      NextIs (exec (.popReg (fieldOf i)) s) fun t =>
        t.reg i = s.peek (s.sp - 1) ∧ t.peek (s.sp - 1) = 0 ∧ t.sp = s.sp - 1
          ∧ ∀ k a, a ≠ s.sp - 1 → t.readAs k a = s.readAs k a

/-! ## JNZ -/

/-- JNZ in both modes: with a condition byte that is not 0 the handler reports length 0 and `pc` becomes XY; with 0 it
reports 2, leaving `pc` untouched, and `pc` then moves on by 2; nothing else changes. The condition is the register, or by JNZ_IMM_COND the immediate
byte or the constant 1. The spec's own decisions D8, D9, D10. -/
def Obligations.JnzJumpsToPairOnNonzero : Prop :=
  (∀ (s : State) (i : RegIndex), NextIs (exec (.jnzReg (fieldOf i)) s) fun t =>
      PcResult s s t (if s.reg i = 0 then s.pc + 2 else s.xy))
  ∧ (∀ (s : State) (imm : Byte), NextIs (exec (.jnzImm imm) s) fun t =>
      PcResult s s t (if s.params.jnzImmCond = .imm ∧ imm = 0 then s.pc + 2 else s.xy))
  ∧ (∀ (s : State) (i : RegIndex),
      (s.reg i ≠ 0 → jnzReg (fieldOf i) s = .done 0 (s.setPc s.xy))
        ∧ (s.reg i = 0 → jnzReg (fieldOf i) s = .done 2 s))
  ∧ (∀ (s : State) (imm : Byte),
      (jnzImmCondition s.params.jnzImmCond imm ≠ 0 → jnzImm imm s = .done 0 (s.setPc s.xy))
        ∧ (jnzImmCondition s.params.jnzImmCond imm = 0 → jnzImm imm s = .done 2 s))
  ∧ RaisesOnBadField .jnzReg

/-! ## IN, OUT and the registry -/

/-- IN in both modes: with a device at the port, the `receive` of the first of them in registration order is called with
the core's snapshot and the register gets the byte it answers, whatever that is (a free value); with none,
DeviceNotPresent is raised and no register is written. The port is the immediate, or the secondary register by the spec's
own decision D11; lookup order, draw and hook duties are its D30, D35, D29. The model's choices: that the hook returns and
the host has one turn while it runs (log entry 15), that the snapshot is taken before the instruction's writes (17), the
form of the free value (6) and the record of the call (7). -/
def Obligations.InWritesDeviceAnswer : Prop :=
  (∀ (s : State) (i : RegIndex) (port : Byte) (d : Device), FirstAt port d (hostTurn s).devices →
      NextIs (exec (.inImm (fieldOf i) port) s) fun t =>
        RegisterResult s (hostTurn ((hostTurn s).logCall (.receive d s.snapshot))) t i
            (Config.deviceAnswer t.busLog) 3
          ∧ (s.agenda = [] → t.busLog = .receive d s.snapshot :: s.busLog))
  ∧ (∀ (s : State) (i j : RegIndex) (d : Device), FirstAt (s.reg j) d (hostTurn s).devices →
      NextIs (exec (.inReg (fieldOf i) (fieldOf j)) s) fun t =>
        RegisterResult s (hostTurn ((hostTurn s).logCall (.receive d s.snapshot))) t i
            (Config.deviceAnswer t.busLog) 2
          ∧ (s.agenda = [] → t.busLog = .receive d s.snapshot :: s.busLog))
  ∧ (∀ (s : State) (i : RegIndex) (port : Byte), (∀ d ∈ (hostTurn s).devices, d.port ≠ port) →
      exec (.inImm (fieldOf i) port) s = .next (raise (.deviceNotPresent port) (hostTurn s)))
  ∧ (∀ (s : State) (i j : RegIndex), (∀ d ∈ (hostTurn s).devices, d.port ≠ s.reg j) →
      exec (.inReg (fieldOf i) (fieldOf j)) s = .next (raise (.deviceNotPresent (s.reg j)) (hostTurn s)))

/-- OUT in both modes: with a device at the port, the `send` of the first of them in registration order is called with
the core's snapshot and the register's byte, and nothing of the core changes but `pc`; with none, DeviceNotPresent is
raised. Which operand is the port is the spec's own decision D11; lookup order and hook duties are its D30, D29. The
model's choices: that the hook returns and the host has one turn while it runs (log entry 15), that the snapshot is taken
before `pc` moves on (17) and the record of the call (7). -/
def Obligations.OutSendsRegisterToDevice : Prop :=
  (∀ (s : State) (i : RegIndex) (port : Byte) (d : Device), FirstAt port d (hostTurn s).devices →
      NextIs (exec (.outImm (fieldOf i) port) s) fun t =>
        PcResult s (hostTurn ((hostTurn s).logCall (.send d s.snapshot (s.reg i)))) t (s.pc + 3)
          ∧ (s.agenda = [] → t.busLog = .send d s.snapshot (s.reg i) :: s.busLog))
  ∧ (∀ (s : State) (i j : RegIndex) (d : Device), FirstAt (s.reg j) d (hostTurn s).devices →
      NextIs (exec (.outReg (fieldOf i) (fieldOf j)) s) fun t =>
        PcResult s (hostTurn ((hostTurn s).logCall (.send d s.snapshot (s.reg i)))) t (s.pc + 2)
          ∧ (s.agenda = [] → t.busLog = .send d s.snapshot (s.reg i) :: s.busLog))
  ∧ (∀ (s : State) (i : RegIndex) (port : Byte), (∀ d ∈ (hostTurn s).devices, d.port ≠ port) →
      exec (.outImm (fieldOf i) port) s = .next (raise (.deviceNotPresent port) (hostTurn s)))
  ∧ (∀ (s : State) (i j : RegIndex), (∀ d ∈ (hostTurn s).devices, d.port ≠ s.reg j) →
      exec (.outReg (fieldOf i) (fieldOf j)) s = .next (raise (.deviceNotPresent (s.reg j)) (hostTurn s)))

/-- After the only device at a port is removed, its `onRemove` hook has been called, and IN and OUT at that port raise
DeviceNotPresent. The snapshot the hook is given (log entry 17) and the record of the call (7) are the model's choice;
which device a removal takes is too (8), but of no account here. -/
def Obligations.RemovedDeviceIsNotPresent : Prop :=
  ∀ (s : State) (before after : List Device) (d : Device) (i : RegIndex), s.agenda = [] →
    s.devices = before ++ d :: after → (∀ e ∈ before ++ after, e.port ≠ d.port) →
      (applyHost (.remove d.port) s).devices = before ++ after
      ∧ (applyHost (.remove d.port) s).busLog = .onRemove d s.snapshot :: s.busLog
      ∧ exec (.inImm (fieldOf i) d.port) (applyHost (.remove d.port) s)
          = .next (raise (.deviceNotPresent d.port) (applyHost (.remove d.port) s))
      ∧ exec (.outImm (fieldOf i) d.port) (applyHost (.remove d.port) s)
          = .next (raise (.deviceNotPresent d.port) (applyHost (.remove d.port) s))

/-- Registrations under the default id number the devices one after the other from the counter, each at the end of the
registry, and past 255 they are refused. The spec's own decision D30. That a refused registration changes nothing is the
model's reading (log entry 9). -/
def Obligations.DefaultRegistrationsNumberPortsInOrder : Prop :=
  (∀ (names : List String) (s : State), s.nextPort + names.length ≤ 256 →
      (applyHosts (names.map HostOp.registerDefault) s).devices
          = s.devices ++ names.zipIdx.map (fun x => ⟨BitVec.ofNat 8 (s.nextPort + x.2), x.1⟩)
        ∧ (applyHosts (names.map HostOp.registerDefault) s).nextPort = s.nextPort + names.length)
  ∧ (∀ (names : List String) (s : State), 256 ≤ s.nextPort →
      applyHosts (names.map HostOp.registerDefault) s = s)

/-! ## The ALU -/

/-- CMP in both modes (46_alu.md R190, R195), whole: LESS exactly when the left byte is below the right as numbers 0 to
255, EQUAL exactly when they are equal; no register but those two bits of F is written. -/
def Obligations.CmpSetsLessAndEqual : Prop :=
  (∀ b1 b2 b3 : Byte, decode ⟨0x2A, b1, b2, b3⟩ = .form (.cmpImm (lowNibble b1) b2)
      ∧ decode ⟨0x2B, b1, b2, b3⟩ = .form (.cmpReg (lowNibble b1) (highNibble b1)))
  ∧ (∀ a b : Byte, aluCmp a b = (decide (a.toNat < b.toNat), decide (a = b)))
  ∧ (∀ (s : State) (i : RegIndex) (imm : Byte), NextIs (exec (.cmpImm (fieldOf i) imm) s) fun t =>
      CompareResult s t (decide ((s.reg i).toNat < imm.toNat)) (decide (s.reg i = imm)) 3)
  ∧ (∀ (s : State) (i j : RegIndex), NextIs (exec (.cmpReg (fieldOf i) (fieldOf j)) s) fun t =>
      CompareResult s t (decide ((s.reg i).toNat < (s.reg j).toNat)) (decide (s.reg i = s.reg j)) 2)
  ∧ (∀ imm, RaisesOnBadField fun r => .cmpImm r imm) ∧ RaisesOnBadFields .cmpReg

/-- The sum of ADC is exact modulo 256 and its carry is set exactly when the sum is 256 or more (46_alu.md R191). -/
def Obligations.AddWithCarryIsExact : Prop :=
  ∀ (a b : Byte) (cin : Bool),
    (aluAdc a b cin).1.toNat = (a.toNat + b.toNat + cin.toNat) % 256
      ∧ ((aluAdc a b cin).2 = true ↔ 256 ≤ a.toNat + b.toNat + cin.toNat)

/-- The difference of SBB is exact modulo 256 and its borrow is set exactly when the difference is negative (46_alu.md
R192, which the spec derives from R191). -/
def Obligations.SubtractWithBorrowIsExact : Prop :=
  ∀ (a b : Byte) (bin : Bool),
    ((aluSbb a b bin).1.toNat : Int) = ((a.toNat : Int) - b.toNat - bin.toNat) % 256
      ∧ ((aluSbb a b bin).2 = true ↔ a.toNat < b.toNat + bin.toNat)

/-- ADC in both modes: the first register gets the sum with CARRY, then CARRY the carry-out; with destination F the flag
bit is written into the sum, by the spec's own decision D6. -/
def Obligations.AdcWritesSumThenCarry : Prop :=
  (∀ (s : State) (i : RegIndex) (imm : Byte), NextIs (exec (.adcImm (fieldOf i) imm) s) fun t =>
      ArithResult s t i (BitVec.ofNat 8 ((s.reg i).toNat + imm.toNat + (s.flag .carry).toNat)) .carry
        (decide (256 ≤ (s.reg i).toNat + imm.toNat + (s.flag .carry).toNat)) 3)
  ∧ (∀ (s : State) (i j : RegIndex), NextIs (exec (.adcReg (fieldOf i) (fieldOf j)) s) fun t =>
      ArithResult s t i (BitVec.ofNat 8 ((s.reg i).toNat + (s.reg j).toNat + (s.flag .carry).toNat)) .carry
        (decide (256 ≤ (s.reg i).toNat + (s.reg j).toNat + (s.flag .carry).toNat)) 2)
  ∧ (∀ imm, RaisesOnBadField fun r => .adcImm r imm) ∧ RaisesOnBadFields .adcReg

/-- SBB in both modes: the first register gets the difference with BORROW, then BORROW the borrow-out; with destination
F the flag bit is written into the difference, by the spec's own decision D6. -/
def Obligations.SbbWritesDifferenceThenBorrow : Prop :=
  (∀ (s : State) (i : RegIndex) (imm : Byte), NextIs (exec (.sbbImm (fieldOf i) imm) s) fun t =>
      ArithResult s t i (s.reg i - imm - BitVec.ofNat 8 (s.flag .borrow).toNat) .borrow
        (decide ((s.reg i).toNat < imm.toNat + (s.flag .borrow).toNat)) 3)
  ∧ (∀ (s : State) (i j : RegIndex), NextIs (exec (.sbbReg (fieldOf i) (fieldOf j)) s) fun t =>
      ArithResult s t i (s.reg i - s.reg j - BitVec.ofNat 8 (s.flag .borrow).toNat) .borrow
        (decide ((s.reg i).toNat < (s.reg j).toNat + (s.flag .borrow).toNat)) 2)
  ∧ (∀ imm, RaisesOnBadField fun r => .sbbImm r imm) ∧ RaisesOnBadFields .sbbReg

/-- AND, OR and NOR in both modes (46_alu.md R193, R198, R199, R200), whole: each bit of the first register becomes the
and, the or, the inverted or of the operands' bits; no flag changes unless F is that register. -/
def Obligations.BitwiseOpsWriteResult : Prop :=
  (∀ b1 b2 b3 : Byte, decode ⟨0x2E, b1, b2, b3⟩ = .form (.andImm (lowNibble b1) b2)
      ∧ decode ⟨0x2F, b1, b2, b3⟩ = .form (.andReg (lowNibble b1) (highNibble b1))
      ∧ decode ⟨0x32, b1, b2, b3⟩ = .form (.orImm (lowNibble b1) b2)
      ∧ decode ⟨0x33, b1, b2, b3⟩ = .form (.orReg (lowNibble b1) (highNibble b1))
      ∧ decode ⟨0x36, b1, b2, b3⟩ = .form (.norImm (lowNibble b1) b2)
      ∧ decode ⟨0x37, b1, b2, b3⟩ = .form (.norReg (lowNibble b1) (highNibble b1)))
  ∧ (∀ (a b : Byte) (n : Nat), n < 8 →
      (aluAnd a b).getLsbD n = (a.getLsbD n && b.getLsbD n)
        ∧ (aluOr a b).getLsbD n = (a.getLsbD n || b.getLsbD n)
        ∧ (aluNor a b).getLsbD n = !(a.getLsbD n || b.getLsbD n))
  ∧ (∀ (s : State) (i : RegIndex) (imm : Byte),
      NextIs (exec (.andImm (fieldOf i) imm) s) (fun t => RegisterResult s s t i (aluAnd (s.reg i) imm) 3)
        ∧ NextIs (exec (.orImm (fieldOf i) imm) s) (fun t => RegisterResult s s t i (aluOr (s.reg i) imm) 3)
        ∧ NextIs (exec (.norImm (fieldOf i) imm) s) (fun t => RegisterResult s s t i (aluNor (s.reg i) imm) 3))
  ∧ (∀ (s : State) (i j : RegIndex),
      NextIs (exec (.andReg (fieldOf i) (fieldOf j)) s)
          (fun t => RegisterResult s s t i (aluAnd (s.reg i) (s.reg j)) 2)
        ∧ NextIs (exec (.orReg (fieldOf i) (fieldOf j)) s)
          (fun t => RegisterResult s s t i (aluOr (s.reg i) (s.reg j)) 2)
        ∧ NextIs (exec (.norReg (fieldOf i) (fieldOf j)) s)
          (fun t => RegisterResult s s t i (aluNor (s.reg i) (s.reg j)) 2))
  ∧ (∀ imm, (RaisesOnBadField fun r => .andImm r imm) ∧ (RaisesOnBadField fun r => .orImm r imm)
      ∧ RaisesOnBadField fun r => .norImm r imm)
  ∧ RaisesOnBadFields .andReg ∧ RaisesOnBadFields .orReg ∧ RaisesOnBadFields .norReg

/-! ## BANK and memory -/

/-- BANK in both modes: a configured id becomes the active bank and nothing else changes but `pc`; any other id raises
MemoryAccessError(bank) with `bank` unchanged. The spec's own decisions D9, D15, D17. That a bad id raises before any turn
of the host is the model's reading (log entry 21). -/
def Obligations.BankSelectsConfiguredBank : Prop :=
  (∀ (s : State) (i : RegIndex), (s.reg i).toNat < s.params.numBanks →
      NextIs (exec (.bankReg (fieldOf i)) s) fun t =>
        t.bank = s.reg i ∧ SameRegs s t ∧ t.pc = s.pc + 2 ∧ t.sp = s.sp ∧ SameMemory (hostTurn s) t
          ∧ SameControl (hostTurn s) t)
  ∧ (∀ (s : State) (k : Byte), k.toNat < s.params.numBanks →
      NextIs (exec (.bankImm k) s) fun t =>
        t.bank = k ∧ SameRegs s t ∧ t.pc = s.pc + 2 ∧ t.sp = s.sp ∧ SameMemory (hostTurn s) t
          ∧ SameControl (hostTurn s) t)
  ∧ (∀ (s : State) (i : RegIndex), s.params.numBanks ≤ (s.reg i).toNat →
      exec (.bankReg (fieldOf i)) s = .next (raise (.memoryBank (s.reg i)) s))
  ∧ (∀ (s : State) (k : Byte), s.params.numBanks ≤ k.toNat →
      exec (.bankImm k) s = .next (raise (.memoryBank k) s))
  ∧ RaisesOnBadField .bankReg

/-- Banks are isolated: a byte stored at a window address under one bank is not what a load at that address finds under
another, while at a common address it is. The mapping is the spec's own decision D15. -/
def Obligations.StoreUnderOneBankIsUnseenUnderAnother : Prop :=
  ∀ (s : State) (j k : Byte) (r d : RegIndex) (a : Addr), s.agenda = [] → Memory.wf s.params.memReset s.mem →
    j ≠ k → j.toNat < s.params.numBanks → k.toNat < s.params.numBanks → mapped s.params a = true →
      ∃ t1 t2 t3 t4 : State, exec (.bankImm j) s = .next t1 ∧ exec (.swAbs (fieldOf r) a) t1 = .next t2
        ∧ exec (.bankImm k) t2 = .next t3 ∧ exec (.lwAbs (fieldOf d) a) t3 = .next t4
        ∧ t4.reg d = if inWindow s.params a then s.readAs k a else s.reg r

/-- `MemRead` is one atomic read: after one turn of the host and with none within it, an unmapped address raises
MemoryAccessError and a mapped one gives the byte of the routed cell; the read itself changes nothing. The mapping is the
spec's own decision D15; the cell numbers `bank * 65536 + address` are the model's choice (log entry 3). -/
def Obligations.MemReadGivesRoutedByte : Prop :=
  ∀ (s : State) (a : Addr),
    (mapped s.params a = false → memRead a s = .raised (.memoryAddress a) (hostTurn s))
    ∧ (mapped s.params a = true → memRead a s
        = .done (memGet s.params.memReset
            (if inWindow s.params a then (hostTurn s).bank.toNat * 65536 + a.toNat else a.toNat) (hostTurn s).mem)
          (hostTurn s))
    ∧ (s.agenda = [] → hostTurn s = s)

/-- A store is seen by the next fetch of its address, with nothing in between, whichever instruction made it: SW in both
modes, PUSH in both modes, POP's clearing write; and so is a host write. An instruction that raises stores nothing: that it
has completed is said by `pc`, moved on by its length. The spec's own decision D33. -/
def Obligations.StoreIsSeenByNextFetch : Prop :=
  (∀ (i : Instr) (s t : State) (ea : Addr), s.agenda = [] → Memory.wf s.params.memReset s.mem →
    storeAddress i s = some ea → exec i s = .next t → t.pc = s.pc + BitVec.ofNat 16 i.length →
      ∃ v, storedByte i s = some v ∧ FetchSees s t ea v)
  ∧ (∀ (s : State) (ea : Addr) (v : Byte), s.agenda = [] → Memory.wf s.params.memReset s.mem →
    mapped s.params ea = true → FetchSees s (applyHost (.set ea v) s) ea v)

/-- A host write into an instruction's bytes between two byte reads of its fetch gives a window with bytes from before
and after the write. -/
def Obligations.HostWriteInsideFetchTearsWindow : Prop :=
  ∀ (s : State) (v v' : Byte), s.agenda = [[], [.set s.pc v, .set (s.pc + 1) v']] →
    Memory.wf s.params.memReset s.mem → mapped s.params s.pc = true → mapped s.params (s.pc + 1) = true →
    mapped s.params (s.pc + 2) = true → mapped s.params (s.pc + 3) = true →
      ∃ w t, fetch s = .done w t ∧ w = ⟨s.peek s.pc, v', s.peek (s.pc + 2), s.peek (s.pc + 3)⟩
        ∧ t.peek s.pc = v ∧ t.pc = s.pc

/-! ## Encoding -/

/-- Decode and encode agree: under every OPMAP that numbers all operations, the encoding of an instruction decodes to
that instruction, whatever bytes follow it. -/
def Obligations.DecodeOfEncodeIsIdentity : Prop :=
  ∀ (m : OpMap) (i : Instr) (following : List Byte), m.complete = true →
    decodeWith m (windowOf (encodeWith m i ++ following)) = .form i

/-- Encode and decode agree: when a window decodes to an instruction, encoding it gives the window's bytes back, as many
as the instruction is long, but for the ignored high nibble of byte 1 in the single-register modes. That the encoder
writes 0 there is the model's choice (log entry 19). -/
def Obligations.EncodeOfDecodeGivesBytesBack : Prop :=
  ∀ (m : OpMap) (w : Window) (i : Instr), m.complete = true → decodeWith m w = .form i →
    encodeWith m i = Window.take
      { w with b1 := if i.mode = .r1i0 ∨ i.mode = .r1i1 then oneReg (lowNibble w.b1) else w.b1 } i.length

/-- The decoder (30_encoding.md R83, R94, R96), whole, under every OPMAP: an operation code above 14 is InvalidOperation,
an operation in a mode it does not support is InvalidAddressingMode, and every other window is a form of that operation
and mode with its operands where the formats put them, register fields not judged. -/
def Obligations.DecodeIsTotalByOperationAndMode : Prop :=
  ∀ (m : OpMap) (w : Window),
    (15 ≤ (opField w.b0).toNat → decodeWith m w = .error (.invalidOperation (opField w.b0)))
    ∧ (0x3C ≤ w.b0.toNat ↔ 15 ≤ (opField w.b0).toNat)
    ∧ ∀ h : (opField w.b0).toNat < 15,
      (supportsMode m[(opField w.b0).toNat] (modeField w.b0) = false →
        decodeWith m w = .error (.invalidAddressingMode (opField w.b0) (modeField w.b0)))
      ∧ (supportsMode m[(opField w.b0).toNat] (modeField w.b0) = true →
        ∃ i, decodeWith m w = .form i ∧ i.operation = m[(opField w.b0).toNat] ∧ i.mode = modeField w.b0
          ∧ (modeField w.b0 = .r1i0 → i.regFields = [lowNibble w.b1])
          ∧ (modeField w.b0 = .r0i1 → encodeOperands i = [w.b1] ∧ i.regFields = [])
          ∧ (modeField w.b0 = .r1i1 → i.regFields = [lowNibble w.b1]
              ∧ (encodeOperands i).tail
                = if i.operation = .lw ∨ i.operation = .sw then [w.b2, w.b3] else [w.b2])
          ∧ (modeField w.b0 = .r2i0 → i.regFields = [lowNibble w.b1, highNibble w.b1]))

/-- Ignored bits do not matter: the high nibble of byte 1 in the single-register modes, and the bytes past the
instruction's length. The spec derives this (30_encoding.md R97). -/
def Obligations.IgnoredBitsDoNotChangeDecoding : Prop :=
  ∀ (m : OpMap) (w v : Window), w.b0 = v.b0 → lowNibble w.b1 = lowNibble v.b1 →
    (modeField w.b0 = .r1i0 → decodeWith m w = decodeWith m v)
    ∧ (modeField w.b0 = .r1i1 → w.b2 = v.b2 → w.b3 = v.b3 → decodeWith m w = decodeWith m v)
    ∧ (modeField w.b0 ≠ .r1i1 → w.b1 = v.b1 → decodeWith m w = decodeWith m v)
    ∧ (∀ i, decodeWith m w = .form i → i.length ≤ 3 → w.b1 = v.b1 → w.b2 = v.b2 → decodeWith m v = .form i)

/-- Words written out from the spec's encodings decode to the instructions they stand for, one or two of each
family. -/
def Obligations.SampleWordsDecode : Prop :=
  decode ⟨0x02, 0x00, 0x05, 0x00⟩ = .form (.movImm 0 0x05)
  ∧ decode ⟨0x03, 0x01, 0x00, 0x00⟩ = .form (.movReg 1 0)
  ∧ decode ⟨0x04, 0x02, 0x00, 0x00⟩ = .form (.jnzReg 2)
  ∧ decode ⟨0x0A, 0x00, 0x34, 0x12⟩ = .form (.lwAbs 0 0x1234)
  ∧ decode ⟨0x0E, 0x03, 0x00, 0x01⟩ = .form (.swAbs 3 0x0100)
  ∧ decode ⟨0x11, 0xAB, 0x00, 0x00⟩ = .form (.pushImm 0xAB)
  ∧ decode ⟨0x14, 0x01, 0x00, 0x00⟩ = .form (.popReg 1)
  ∧ decode ⟨0x1B, 0x10, 0x00, 0x00⟩ = .form (.inReg 0 1)
  ∧ decode ⟨0x1E, 0x00, 0x02, 0x00⟩ = .form (.outImm 0 0x02)
  ∧ decode ⟨0x22, 0x00, 0x01, 0x00⟩ = .form (.adcImm 0 0x01)
  ∧ decode ⟨0x27, 0x32, 0x00, 0x00⟩ = .form (.sbbReg 2 3)
  ∧ decode ⟨0x2B, 0x21, 0x00, 0x00⟩ = .form (.cmpReg 1 2)
  ∧ decode ⟨0x36, 0x00, 0x0F, 0x00⟩ = .form (.norImm 0 0x0F)
  ∧ decode ⟨0x39, 0x04, 0x00, 0x00⟩ = .form (.bankImm 4)

/-! ## The end of a run -/

/-- A run stops before the instruction at STOP_PC, a faulted run is never a stopped one, and a run that has ended stays
ended with more steps allowed. The spec's own decision D31. That STOP_PC acts in runs alone, and that host operations
after the core's last operation are no part of the end state, are the model's choices (log entries 13, 22). -/
def Obligations.EndedRunStaysEnded : Prop :=
  (∀ (n : Nat) (s : State), s.status = .running → s.params.stopPc = some s.pc → runFor n s = .stopped s)
  ∧ (∀ (n : Nat) (s t : State), runFor n s = .stopped t →
      t.status = .running ∧ t.params.stopPc = some t.pc ∧ ∀ k, runFor (n + k) s = .stopped t)
  ∧ (∀ (n : Nat) (s t : State) (r : FaultRecord), runFor n s = .faulted r t →
      t.status = .faulted r ∧ ∀ k, runFor (n + k) s = .faulted r t)
  ∧ (∀ (n : Nat) (s : State) (r : Refusal), runFor n s ≠ .refused r)
end

