-- ==== Sys2Proof/Laws/State.lean ====
section
/-! SUPPORT. One lemma per field per update of State, and what each update does to a register or a byte read. -/

namespace Sys2Proof.Machine

@[simp] theorem State.setReg_params (s : State) (i : RegIndex) (v : Byte) : (s.setReg i v).params = s.params := rfl
@[simp] theorem State.setReg_regs (s : State) (i : RegIndex) (v : Byte) : (s.setReg i v).regs = s.regs.set i v := rfl
@[simp] theorem State.setReg_pc (s : State) (i : RegIndex) (v : Byte) : (s.setReg i v).pc = s.pc := rfl
@[simp] theorem State.setReg_sp (s : State) (i : RegIndex) (v : Byte) : (s.setReg i v).sp = s.sp := rfl
@[simp] theorem State.setReg_bank (s : State) (i : RegIndex) (v : Byte) : (s.setReg i v).bank = s.bank := rfl
@[simp] theorem State.setReg_mem (s : State) (i : RegIndex) (v : Byte) : (s.setReg i v).mem = s.mem := rfl
@[simp] theorem State.setReg_devices (s : State) (i : RegIndex) (v : Byte) : (s.setReg i v).devices = s.devices := rfl
@[simp] theorem State.setReg_nextPort (s : State) (i : RegIndex) (v : Byte) : (s.setReg i v).nextPort = s.nextPort := rfl
@[simp] theorem State.setReg_busLog (s : State) (i : RegIndex) (v : Byte) : (s.setReg i v).busLog = s.busLog := rfl
@[simp] theorem State.setReg_agenda (s : State) (i : RegIndex) (v : Byte) : (s.setReg i v).agenda = s.agenda := rfl
@[simp] theorem State.setReg_status (s : State) (i : RegIndex) (v : Byte) : (s.setReg i v).status = s.status := rfl

@[simp] theorem State.setFlag_params (s : State) (g : Flag) (v : Bool) : (s.setFlag g v).params = s.params := rfl
@[simp] theorem State.setFlag_pc (s : State) (g : Flag) (v : Bool) : (s.setFlag g v).pc = s.pc := rfl
@[simp] theorem State.setFlag_sp (s : State) (g : Flag) (v : Bool) : (s.setFlag g v).sp = s.sp := rfl
@[simp] theorem State.setFlag_bank (s : State) (g : Flag) (v : Bool) : (s.setFlag g v).bank = s.bank := rfl
@[simp] theorem State.setFlag_mem (s : State) (g : Flag) (v : Bool) : (s.setFlag g v).mem = s.mem := rfl
@[simp] theorem State.setFlag_devices (s : State) (g : Flag) (v : Bool) : (s.setFlag g v).devices = s.devices := rfl
@[simp] theorem State.setFlag_nextPort (s : State) (g : Flag) (v : Bool) : (s.setFlag g v).nextPort = s.nextPort := rfl
@[simp] theorem State.setFlag_busLog (s : State) (g : Flag) (v : Bool) : (s.setFlag g v).busLog = s.busLog := rfl
@[simp] theorem State.setFlag_agenda (s : State) (g : Flag) (v : Bool) : (s.setFlag g v).agenda = s.agenda := rfl
@[simp] theorem State.setFlag_status (s : State) (g : Flag) (v : Bool) : (s.setFlag g v).status = s.status := rfl

@[simp] theorem State.setPc_params (s : State) (a : Addr) : (s.setPc a).params = s.params := rfl
@[simp] theorem State.setPc_regs (s : State) (a : Addr) : (s.setPc a).regs = s.regs := rfl
@[simp] theorem State.setPc_pc (s : State) (a : Addr) : (s.setPc a).pc = a := rfl
@[simp] theorem State.setPc_sp (s : State) (a : Addr) : (s.setPc a).sp = s.sp := rfl
@[simp] theorem State.setPc_bank (s : State) (a : Addr) : (s.setPc a).bank = s.bank := rfl
@[simp] theorem State.setPc_mem (s : State) (a : Addr) : (s.setPc a).mem = s.mem := rfl
@[simp] theorem State.setPc_devices (s : State) (a : Addr) : (s.setPc a).devices = s.devices := rfl
@[simp] theorem State.setPc_nextPort (s : State) (a : Addr) : (s.setPc a).nextPort = s.nextPort := rfl
@[simp] theorem State.setPc_busLog (s : State) (a : Addr) : (s.setPc a).busLog = s.busLog := rfl
@[simp] theorem State.setPc_agenda (s : State) (a : Addr) : (s.setPc a).agenda = s.agenda := rfl
@[simp] theorem State.setPc_status (s : State) (a : Addr) : (s.setPc a).status = s.status := rfl

@[simp] theorem State.setSp_params (s : State) (a : Addr) : (s.setSp a).params = s.params := rfl
@[simp] theorem State.setSp_regs (s : State) (a : Addr) : (s.setSp a).regs = s.regs := rfl
@[simp] theorem State.setSp_pc (s : State) (a : Addr) : (s.setSp a).pc = s.pc := rfl
@[simp] theorem State.setSp_sp (s : State) (a : Addr) : (s.setSp a).sp = a := rfl
@[simp] theorem State.setSp_bank (s : State) (a : Addr) : (s.setSp a).bank = s.bank := rfl
@[simp] theorem State.setSp_mem (s : State) (a : Addr) : (s.setSp a).mem = s.mem := rfl
@[simp] theorem State.setSp_devices (s : State) (a : Addr) : (s.setSp a).devices = s.devices := rfl
@[simp] theorem State.setSp_nextPort (s : State) (a : Addr) : (s.setSp a).nextPort = s.nextPort := rfl
@[simp] theorem State.setSp_busLog (s : State) (a : Addr) : (s.setSp a).busLog = s.busLog := rfl
@[simp] theorem State.setSp_agenda (s : State) (a : Addr) : (s.setSp a).agenda = s.agenda := rfl
@[simp] theorem State.setSp_status (s : State) (a : Addr) : (s.setSp a).status = s.status := rfl

@[simp] theorem State.poke_params (s : State) (a : Addr) (v : Byte) : (s.poke a v).params = s.params := rfl
@[simp] theorem State.poke_regs (s : State) (a : Addr) (v : Byte) : (s.poke a v).regs = s.regs := rfl
@[simp] theorem State.poke_pc (s : State) (a : Addr) (v : Byte) : (s.poke a v).pc = s.pc := rfl
@[simp] theorem State.poke_sp (s : State) (a : Addr) (v : Byte) : (s.poke a v).sp = s.sp := rfl
@[simp] theorem State.poke_bank (s : State) (a : Addr) (v : Byte) : (s.poke a v).bank = s.bank := rfl
@[simp] theorem State.poke_mem (s : State) (a : Addr) (v : Byte) : (s.poke a v).mem = memSet s.params.memReset (cellKey s.params s.bank a) v s.mem := rfl
@[simp] theorem State.poke_devices (s : State) (a : Addr) (v : Byte) : (s.poke a v).devices = s.devices := rfl
@[simp] theorem State.poke_nextPort (s : State) (a : Addr) (v : Byte) : (s.poke a v).nextPort = s.nextPort := rfl
@[simp] theorem State.poke_busLog (s : State) (a : Addr) (v : Byte) : (s.poke a v).busLog = s.busLog := rfl
@[simp] theorem State.poke_agenda (s : State) (a : Addr) (v : Byte) : (s.poke a v).agenda = s.agenda := rfl
@[simp] theorem State.poke_status (s : State) (a : Addr) (v : Byte) : (s.poke a v).status = s.status := rfl

@[simp] theorem State.logCall_params (s : State) (c : BusCall) : (s.logCall c).params = s.params := rfl
@[simp] theorem State.logCall_regs (s : State) (c : BusCall) : (s.logCall c).regs = s.regs := rfl
@[simp] theorem State.logCall_pc (s : State) (c : BusCall) : (s.logCall c).pc = s.pc := rfl
@[simp] theorem State.logCall_sp (s : State) (c : BusCall) : (s.logCall c).sp = s.sp := rfl
@[simp] theorem State.logCall_bank (s : State) (c : BusCall) : (s.logCall c).bank = s.bank := rfl
@[simp] theorem State.logCall_mem (s : State) (c : BusCall) : (s.logCall c).mem = s.mem := rfl
@[simp] theorem State.logCall_devices (s : State) (c : BusCall) : (s.logCall c).devices = s.devices := rfl
@[simp] theorem State.logCall_nextPort (s : State) (c : BusCall) : (s.logCall c).nextPort = s.nextPort := rfl
@[simp] theorem State.logCall_busLog (s : State) (c : BusCall) : (s.logCall c).busLog = c :: s.busLog := rfl
@[simp] theorem State.logCall_agenda (s : State) (c : BusCall) : (s.logCall c).agenda = s.agenda := rfl
@[simp] theorem State.logCall_status (s : State) (c : BusCall) : (s.logCall c).status = s.status := rfl

@[simp] theorem raise_params (s : State) (e : Error) : (raise e s).params = s.params := rfl
@[simp] theorem raise_regs (s : State) (e : Error) : (raise e s).regs = s.regs := rfl
@[simp] theorem raise_pc (s : State) (e : Error) : (raise e s).pc = s.pc := rfl
@[simp] theorem raise_sp (s : State) (e : Error) : (raise e s).sp = s.sp := rfl
@[simp] theorem raise_bank (s : State) (e : Error) : (raise e s).bank = s.bank := rfl
@[simp] theorem raise_mem (s : State) (e : Error) : (raise e s).mem = s.mem := rfl
@[simp] theorem raise_devices (s : State) (e : Error) : (raise e s).devices = s.devices := rfl
@[simp] theorem raise_nextPort (s : State) (e : Error) : (raise e s).nextPort = s.nextPort := rfl
@[simp] theorem raise_busLog (s : State) (e : Error) : (raise e s).busLog = s.busLog := rfl
@[simp] theorem raise_agenda (s : State) (e : Error) : (raise e s).agenda = s.agenda := rfl
@[simp] theorem raise_status (s : State) (e : Error) : (raise e s).status = .faulted { error := e, pc := s.pc } := rfl

@[simp] theorem addDevice_params (s : State) (d : Device) : (addDevice d s).params = s.params := rfl
@[simp] theorem addDevice_regs (s : State) (d : Device) : (addDevice d s).regs = s.regs := rfl
@[simp] theorem addDevice_pc (s : State) (d : Device) : (addDevice d s).pc = s.pc := rfl
@[simp] theorem addDevice_sp (s : State) (d : Device) : (addDevice d s).sp = s.sp := rfl
@[simp] theorem addDevice_bank (s : State) (d : Device) : (addDevice d s).bank = s.bank := rfl
@[simp] theorem addDevice_mem (s : State) (d : Device) : (addDevice d s).mem = s.mem := rfl
@[simp] theorem addDevice_devices (s : State) (d : Device) : (addDevice d s).devices = s.devices ++ [d] := rfl
@[simp] theorem addDevice_nextPort (s : State) (d : Device) : (addDevice d s).nextPort = s.nextPort := rfl
@[simp] theorem addDevice_busLog (s : State) (d : Device) : (addDevice d s).busLog = s.busLog := rfl
@[simp] theorem addDevice_agenda (s : State) (d : Device) : (addDevice d s).agenda = s.agenda := rfl
@[simp] theorem addDevice_status (s : State) (d : Device) : (addDevice d s).status = s.status := rfl

@[simp] theorem State.setPc_reg (s : State) (a : Addr) (j : RegIndex) : (s.setPc a).reg j = s.reg j := rfl
@[simp] theorem State.setSp_reg (s : State) (a : Addr) (j : RegIndex) : (s.setSp a).reg j = s.reg j := rfl
@[simp] theorem State.poke_reg (s : State) (a : Addr) (v : Byte) (j : RegIndex) : (s.poke a v).reg j = s.reg j := rfl
@[simp] theorem State.logCall_reg (s : State) (c : BusCall) (j : RegIndex) : (s.logCall c).reg j = s.reg j := rfl
@[simp] theorem raise_reg (s : State) (e : Error) (j : RegIndex) : (raise e s).reg j = s.reg j := rfl
@[simp] theorem addDevice_reg (s : State) (d : Device) (j : RegIndex) : (addDevice d s).reg j = s.reg j := rfl

@[simp] theorem State.setReg_readAs (s : State) (i : RegIndex) (v : Byte) (k : Byte) (b : Addr) :
    (s.setReg i v).readAs k b = s.readAs k b := rfl
@[simp] theorem State.setReg_peek (s : State) (i : RegIndex) (v : Byte) (b : Addr) : (s.setReg i v).peek b = s.peek b := rfl
@[simp] theorem State.setFlag_readAs (s : State) (g : Flag) (v : Bool) (k : Byte) (b : Addr) :
    (s.setFlag g v).readAs k b = s.readAs k b := rfl
@[simp] theorem State.setFlag_peek (s : State) (g : Flag) (v : Bool) (b : Addr) : (s.setFlag g v).peek b = s.peek b := rfl
@[simp] theorem State.setPc_readAs (s : State) (a : Addr) (k : Byte) (b : Addr) :
    (s.setPc a).readAs k b = s.readAs k b := rfl
@[simp] theorem State.setPc_peek (s : State) (a : Addr) (b : Addr) : (s.setPc a).peek b = s.peek b := rfl
@[simp] theorem State.setSp_readAs (s : State) (a : Addr) (k : Byte) (b : Addr) :
    (s.setSp a).readAs k b = s.readAs k b := rfl
@[simp] theorem State.setSp_peek (s : State) (a : Addr) (b : Addr) : (s.setSp a).peek b = s.peek b := rfl
@[simp] theorem State.logCall_readAs (s : State) (c : BusCall) (k : Byte) (b : Addr) :
    (s.logCall c).readAs k b = s.readAs k b := rfl
@[simp] theorem State.logCall_peek (s : State) (c : BusCall) (b : Addr) : (s.logCall c).peek b = s.peek b := rfl
@[simp] theorem raise_readAs (s : State) (e : Error) (k : Byte) (b : Addr) :
    (raise e s).readAs k b = s.readAs k b := rfl
@[simp] theorem raise_peek (s : State) (e : Error) (b : Addr) : (raise e s).peek b = s.peek b := rfl
@[simp] theorem addDevice_readAs (s : State) (d : Device) (k : Byte) (b : Addr) :
    (addDevice d s).readAs k b = s.readAs k b := rfl
@[simp] theorem addDevice_peek (s : State) (d : Device) (b : Addr) : (addDevice d s).peek b = s.peek b := rfl

theorem State.setReg_reg (s : State) (i j : RegIndex) (v : Byte) :
    (s.setReg i v).reg j = if j = i then v else s.reg j := by
  rcases eq_or_ne j i with rfl | h
  · simp [State.reg]
  · have h' : (i : Nat) ≠ j := fun e => h (Fin.ext e.symm)
    simp [State.reg, h, h']

@[simp] theorem State.setReg_reg_self (s : State) (i : RegIndex) (v : Byte) : (s.setReg i v).reg i = v := by
  simp [State.setReg_reg]

theorem State.setReg_reg_of_ne (s : State) {i j : RegIndex} (v : Byte) (h : j ≠ i) :
    (s.setReg i v).reg j = s.reg j := by
  simp [State.setReg_reg, h]

/-- Writing a flag writes F alone. -/
theorem State.setFlag_reg (s : State) (g : Flag) (v : Bool) (j : RegIndex) :
    (s.setFlag g v).reg j = if j = s.params.regMap.f then withFlag g v s.flagReg else s.reg j :=
  State.setReg_reg s _ j _

theorem State.setFlag_flagReg (s : State) (g : Flag) (v : Bool) :
    (s.setFlag g v).flagReg = withFlag g v s.flagReg := by
  simp [State.flagReg, State.setFlag]

@[simp] theorem State.setReg_flagReg_self (s : State) (v : Byte) :
    (s.setReg s.params.regMap.f v).flagReg = v := by
  simp [State.flagReg]

end Sys2Proof.Machine
end

