-- ==== Sys2Proof/Laws/Memory.lean ====
section
/-! SUPPORT. Memory: read after write, the canonical form, and that no two cells share a number (20_memory.md R53). -/

namespace Sys2Proof.Machine

@[simp] theorem memGet_nil (d : Byte) (k : Nat) : memGet d k [] = d := rfl

/-- A cell below every listed one reads as the default. -/
theorem memGet_of_below {d : Byte} {k : Nat} {m : Memory} (h : ∀ c ∈ m, k < c.1) : memGet d k m = d := by
  induction m with
  | nil => rfl
  | cons c rest ih =>
    have hc : c.1 ≠ k := by have := h c (by simp); omega
    simp only [memGet, hc, if_false]
    exact ih fun c' hc' => h c' (by simp [hc'])

/-- The cells listed after a write are the written one and cells listed before. -/
theorem mem_memSet {d v : Byte} {k : Nat} {m : Memory} {c : Host.Cell} (h : c ∈ memSet d k v m) :
    c = (k, v) ∧ v ≠ d ∨ c ∈ m := by
  induction m with
  | nil => by_cases hv : v = d <;> simp_all [memSet]
  | cons x rest ih =>
    simp only [memSet] at h
    by_cases hv : v = d <;> split_ifs at h <;> simp only [List.mem_cons] at h ⊢ <;> tauto

/-- Read after write: the written cell reads as the value, every other cell as before. -/
theorem memGet_memSet {d v : Byte} {k j : Nat} {m : Memory} (hm : Memory.wf d m) :
    memGet d j (memSet d k v m) = if j = k then v else memGet d j m := by
  induction m with
  | nil => by_cases hv : v = d <;> by_cases hj : j = k <;> simp [memSet, memGet, hv, hj, @eq_comm _ k j]
  | cons c rest ih =>
    obtain ⟨hs, hd⟩ := hm
    rw [List.pairwise_cons] at hs
    have ih := ih ⟨hs.2, fun c' h' => hd c' (by simp [h'])⟩
    have below : ∀ {k'}, k' ≤ c.1 → memGet d k' rest = d := fun h' =>
      memGet_of_below fun c' hc' => lt_of_le_of_lt h' (hs.1 c' hc')
    simp only [memSet]
    rcases lt_trichotomy k c.1 with h | h | h
    · simp only [h, if_true]
      by_cases hv : v = d <;> by_cases hj : j = k
      · subst hj; simp [hv, memGet, below h.le, h.ne']
      · simp [hv, hj]
      · subst hj; simp [hv, memGet]
      · simp [hv, hj, memGet, Ne.symm hj]
    · subst h
      by_cases hv : v = d <;> by_cases hj : j = c.1
      · subst hj; simp [hv, below le_rfl]
      · simp [hv, hj, memGet, Ne.symm hj]
      · subst hj; simp [hv, memGet]
      · simp [hv, hj, memGet, Ne.symm hj]
    · have h1 : ¬ k < c.1 := by omega
      have h2 : ¬ c.1 = k := by omega
      simp only [h1, h2, if_false, memGet, ih]
      by_cases hj : c.1 = j
      · have : ¬ j = k := by omega
        simp [hj, this]
      · simp [hj]

/-- A write keeps the canonical form. -/
theorem memSet_wf {d v : Byte} {k : Nat} {m : Memory} (hm : Memory.wf d m) : Memory.wf d (memSet d k v m) := by
  refine ⟨?_, fun c hc => ?_⟩
  · induction m with
    | nil => by_cases hv : v = d <;> simp [memSet, hv]
    | cons c rest ih =>
      obtain ⟨hs, hd⟩ := hm
      have hs' := List.pairwise_cons.1 hs
      have ih := ih ⟨hs'.2, fun c' h' => hd c' (by simp [h'])⟩
      simp only [memSet]
      rcases lt_trichotomy k c.1 with h | h | h
      · simp only [h, if_true]
        split
        · exact hs
        · refine List.pairwise_cons.2 ⟨fun c' hc' => ?_, hs⟩
          rcases List.mem_cons.1 hc' with rfl | hc'
          · exact h
          · exact h.trans (hs'.1 c' hc')
      · subst h
        simp only [lt_irrefl, if_true, if_false]
        split
        · exact hs'.2
        · exact List.pairwise_cons.2 ⟨fun c' hc' => hs'.1 c' hc', hs'.2⟩
      · have h1 : ¬ k < c.1 := by omega
        have h2 : ¬ c.1 = k := by omega
        simp only [h1, h2, if_false]
        refine List.pairwise_cons.2 ⟨fun c' hc' => ?_, ih⟩
        rcases mem_memSet hc' with ⟨rfl, -⟩ | hc'
        · exact h
        · exact hs'.1 c' hc'
  · rcases mem_memSet hc with ⟨rfl, hv⟩ | hc
    · exact hv
    · exact hm.2 c hc

/-- Memories in canonical form that read alike are the same data. -/
theorem Memory.ext_of_wf {d : Byte} {m n : Memory} (hm : Memory.wf d m) (hn : Memory.wf d n)
    (h : ∀ k, memGet d k m = memGet d k n) : m = n := by
  induction m generalizing n with
  | nil =>
    cases n with
    | nil => rfl
    | cons c rest => exact absurd (by simpa [memGet] using (h c.1).symm) (hn.2 c (by simp))
  | cons c rest ih =>
    cases n with
    | nil => exact absurd (by simpa [memGet] using h c.1) (hm.2 c (by simp))
    | cons c' rest' =>
      have sm := List.pairwise_cons.1 hm.1
      have sn := List.pairwise_cons.1 hn.1
      have hc := hm.2 c (by simp)
      have hc' := hn.2 c' (by simp)
      have key : c.1 = c'.1 := by
        rcases lt_trichotomy c.1 c'.1 with hlt | heq | hgt
        · have e := h c.1
          rw [memGet_of_below (m := c' :: rest')] at e
          · exact absurd (by simpa [memGet] using e) hc
          · intro x hx
            rcases List.mem_cons.1 hx with rfl | hx
            · exact hlt
            · exact hlt.trans (sn.1 x hx)
        · exact heq
        · have e := (h c'.1).symm
          rw [memGet_of_below (m := c :: rest)] at e
          · exact absurd (by simpa [memGet] using e) hc'
          · intro x hx
            rcases List.mem_cons.1 hx with rfl | hx
            · exact hgt
            · exact hgt.trans (sm.1 x hx)
      have val : c.2 = c'.2 := by simpa [memGet, key] using h c.1
      have tails : rest = rest' := by
        refine ih ⟨sm.2, fun x hx => hm.2 x (by simp [hx])⟩ ⟨sn.2, fun x hx => hn.2 x (by simp [hx])⟩ fun k => ?_
        by_cases hk : c.1 = k
        · subst hk
          rw [memGet_of_below sm.1, key, memGet_of_below sn.1]
        · have := h k
          simpa [memGet, hk, ← key] using this
      rw [tails, Prod.ext key val]

/-- Two cells share a number only when they are the same cell: the same address, and the same bank where the address
lies in the window (20_memory.md R53, R58). -/
theorem cellKey_eq_iff (p : Params) (j k : Byte) (a b : Addr) :
    cellKey p j a = cellKey p k b ↔ a = b ∧ (j = k ∨ inWindow p b = false) := by
  have ha := a.isLt
  have hb := b.isLt
  constructor
  · intro h
    unfold cellKey at h
    cases hwa : inWindow p a <;> cases hwb : inWindow p b <;> simp only [hwa, hwb] at h
    · exact ⟨BitVec.eq_of_toNat_eq (by simpa using h), .inr rfl⟩
    · have : a = b := BitVec.eq_of_toNat_eq (by simp at h; omega)
      simp_all
    · have : a = b := BitVec.eq_of_toNat_eq (by simp at h; omega)
      simp_all
    · simp only [if_true] at h
      exact ⟨BitVec.eq_of_toNat_eq (by omega), .inl (BitVec.eq_of_toNat_eq (by omega))⟩
  · rintro ⟨rfl, rfl | h⟩
    · rfl
    · simp [cellKey, h]

/-- The memory of the machine is in canonical form. -/
def State.MemWf (s : State) : Prop := Memory.wf s.params.memReset s.mem

/-- Reading a byte after a write through the active bank. -/
theorem State.poke_readAs {s : State} (hm : s.MemWf) (a : Addr) (v : Byte) (k : Byte) (b : Addr) :
    (s.poke a v).readAs k b = if b = a ∧ (k = s.bank ∨ inWindow s.params a = false) then v else s.readAs k b := by
  simp only [State.readAs, State.poke, memGet_memSet hm, cellKey_eq_iff]

/-- A write through the active bank stores that byte and no other. -/
theorem State.poke_storesByte {s : State} (hm : s.MemWf) (a : Addr) (v : Byte) : StoresByte s (s.poke a v) a v :=
  fun k b => State.poke_readAs hm a v k b

theorem State.poke_memWf {s : State} (hm : s.MemWf) (a : Addr) (v : Byte) : (s.poke a v).MemWf := memSet_wf hm

theorem State.pokeAll_memWf {s : State} (hm : s.MemWf) (a : Addr) (bytes : List Byte) :
    (s.pokeAll a bytes).MemWf := by
  induction bytes generalizing s a with
  | nil => exact hm
  | cons v rest ih => exact ih (State.poke_memWf hm a v) (a + 1)

/-- The cell of an address exists while a configured bank is active. -/
theorem cellExists_cellKey {p : Params} {k : Byte} (hk : k.toNat < p.numBanks) (a : Addr) :
    cellExists p (cellKey p k a) = true := by
  have ha := a.isLt
  have low : BitVec.ofNat 16 (cellKey p k a) = a := by
    apply BitVec.eq_of_toNat_eq
    simp only [BitVec.toNat_ofNat, cellKey]
    split <;> omega
  unfold cellExists
  rw [low]
  cases hw : inWindow p a <;> simp only [cellKey, hw, if_true, Bool.false_eq_true, if_false, decide_eq_true_eq]
  · exact ha
  · calc k.toNat * 0x10000 + a.toNat < (k.toNat + 1) * 0x10000 := by omega
      _ ≤ p.numBanks * 0x10000 := Nat.mul_le_mul_right _ hk

/-- Reset's memory is in canonical form. -/
theorem State.resetWith_memWf (p : Params) : (State.resetWith p).MemWf := by simp [State.MemWf, State.resetWith, Memory.wf]

theorem State.reset_memWf : State.reset.MemWf := State.resetWith_memWf defaultParams

end Sys2Proof.Machine
end

