-- ==== Sys2Proof/Laws/Host.lean ====
section
/-! SUPPORT. What the host's operations and its turn can do: never a register, `pc`, `sp`, the status or a parameter
(10_state.md R24; 20_memory.md R70), and memory keeps its canonical form. -/

namespace Sys2Proof.Machine

/-- What belongs to the core alone is the same in both states. -/
structure SameCore (s t : State) : Prop where
  regs : t.regs = s.regs
  pc : t.pc = s.pc
  sp : t.sp = s.sp
  status : t.status = s.status
  params : t.params = s.params

theorem SameCore.refl (s : State) : SameCore s s := ⟨rfl, rfl, rfl, rfl, rfl⟩

theorem SameCore.trans {s t u : State} (h : SameCore s t) (k : SameCore t u) : SameCore s u :=
  ⟨k.regs.trans h.regs, k.pc.trans h.pc, k.sp.trans h.sp, k.status.trans h.status, k.params.trans h.params⟩

theorem SameCore.reg {s t : State} (h : SameCore s t) (j : RegIndex) : t.reg j = s.reg j := by
  simp only [State.reg, h.regs]

theorem SameCore.xy {s t : State} (h : SameCore s t) : t.xy = s.xy := by
  simp only [State.xy, h.reg, h.params]

theorem SameCore.flagReg {s t : State} (h : SameCore s t) : t.flagReg = s.flagReg := by
  simp only [State.flagReg, h.reg, h.params]

/-- The parts of the invariant that the host can reach. -/
structure HostInv (s : State) : Prop where
  mem : s.MemWf
  cells : ∀ c ∈ s.mem, cellExists s.params c.1 = true
  bank : s.bank.toNat < s.params.numBanks
  port : s.nextPort ≤ 256

theorem State.Inv.hostInv {s : State} (h : s.Inv) : HostInv s := ⟨h.2.2.2.2.1, h.2.2.2.2.2.1, h.2.2.2.1, h.2.2.2.2.2.2⟩

theorem HostInv.poke {s : State} (h : HostInv s) (a : Addr) (v : Byte) : HostInv (s.poke a v) where
  mem := State.poke_memWf h.mem a v
  cells := fun c hc => by
    rcases mem_memSet hc with ⟨rfl, -⟩ | hc
    · exact cellExists_cellKey h.bank a
    · exact h.cells c hc
  bank := h.bank
  port := h.port

/-- One host operation leaves the core's own state alone. -/
theorem applyHost_sameCore (o : HostOp) (s : State) : SameCore s (applyHost o s) := by
  cases o with
  | get a => exact ⟨rfl, rfl, rfl, rfl, rfl⟩
  | set a v => simp only [applyHost, hostSet]; split <;> exact ⟨rfl, rfl, rfl, rfl, rfl⟩
  | selectBank k => simp only [applyHost, hostSelectBank]; split <;> exact ⟨rfl, rfl, rfl, rfl, rfl⟩
  | registerDefault n => simp only [applyHost, hostRegisterDefault]; split <;> exact ⟨rfl, rfl, rfl, rfl, rfl⟩
  | registerAt p n => exact ⟨rfl, rfl, rfl, rfl, rfl⟩
  | remove p => simp only [applyHost, hostRemove]; split <;> exact ⟨rfl, rfl, rfl, rfl, rfl⟩

/-- One host operation keeps memory in canonical form. -/
theorem applyHost_memWf (o : HostOp) {s : State} (h : s.MemWf) : (applyHost o s).MemWf := by
  cases o with
  | get a => exact h
  | set a v =>
    simp only [applyHost, hostSet]
    split
    · exact State.poke_memWf h a v
    · exact h
  | selectBank k => simp only [applyHost, hostSelectBank]; split <;> exact h
  | registerDefault n => simp only [applyHost, hostRegisterDefault]; split <;> exact h
  | registerAt p n => exact h
  | remove p => simp only [applyHost, hostRemove]; split <;> exact h

/-- One host operation keeps the host's part of the invariant. -/
theorem applyHost_hostInv (o : HostOp) {s : State} (h : HostInv s) : HostInv (applyHost o s) := by
  cases o with
  | get a => exact h
  | set a v =>
    simp only [applyHost, hostSet]
    split
    · exact h.poke a v
    · exact h
  | selectBank k =>
    simp only [applyHost, hostSelectBank]
    split
    · exact ⟨h.mem, h.cells, ‹_›, h.port⟩
    · exact h
  | registerDefault n =>
    simp only [applyHost, hostRegisterDefault]
    split
    · exact ⟨h.mem, h.cells, h.bank, by assumption⟩
    · exact h
  | registerAt p n => exact ⟨h.mem, h.cells, h.bank, h.port⟩
  | remove p => simp only [applyHost, hostRemove]; split <;> exact ⟨h.mem, h.cells, h.bank, h.port⟩

theorem applyHosts_sameCore (os : List HostOp) (s : State) : SameCore s (applyHosts os s) := by
  induction os generalizing s with
  | nil => exact SameCore.refl s
  | cons o rest ih => exact (applyHost_sameCore o s).trans (ih _)

theorem applyHosts_memWf (os : List HostOp) {s : State} (h : s.MemWf) : (applyHosts os s).MemWf := by
  induction os generalizing s with
  | nil => exact h
  | cons o rest ih => exact ih (applyHost_memWf o h)

theorem applyHosts_hostInv (os : List HostOp) {s : State} (h : HostInv s) : HostInv (applyHosts os s) := by
  induction os generalizing s with
  | nil => exact h
  | cons o rest ih => exact ih (applyHost_hostInv o h)

/-- With nothing on the agenda the host does nothing. -/
theorem hostTurn_idle {s : State} (h : s.agenda = []) : hostTurn s = s := by simp [hostTurn, h]

/-- The host's turn leaves the core's own state alone. -/
theorem hostTurn_sameCore (s : State) : SameCore s (hostTurn s) := by
  unfold hostTurn
  split
  · exact SameCore.refl s
  · next rest _ => exact SameCore.trans (t := { s with agenda := rest }) ⟨rfl, rfl, rfl, rfl, rfl⟩ (applyHosts_sameCore _ _)

@[simp] theorem hostTurn_regs (s : State) : (hostTurn s).regs = s.regs := (hostTurn_sameCore s).regs
@[simp] theorem hostTurn_pc (s : State) : (hostTurn s).pc = s.pc := (hostTurn_sameCore s).pc
@[simp] theorem hostTurn_sp (s : State) : (hostTurn s).sp = s.sp := (hostTurn_sameCore s).sp
@[simp] theorem hostTurn_status (s : State) : (hostTurn s).status = s.status := (hostTurn_sameCore s).status
@[simp] theorem hostTurn_params (s : State) : (hostTurn s).params = s.params := (hostTurn_sameCore s).params
@[simp] theorem hostTurn_reg (s : State) (j : RegIndex) : (hostTurn s).reg j = s.reg j := (hostTurn_sameCore s).reg j
@[simp] theorem hostTurn_xy (s : State) : (hostTurn s).xy = s.xy := (hostTurn_sameCore s).xy

theorem hostTurn_memWf {s : State} (h : s.MemWf) : (hostTurn s).MemWf := by
  unfold hostTurn
  split
  · exact h
  · exact applyHosts_memWf _ h

theorem hostTurn_hostInv {s : State} (h : HostInv s) : HostInv (hostTurn s) := by
  unfold hostTurn
  split
  · exact h
  · exact applyHosts_hostInv _ ⟨h.mem, h.cells, h.bank, h.port⟩

/-- A lookup finds a device exactly when it is the first in registration order at the port (45_io.md R171). -/
theorem findDevice_eq_some_iff {port : Byte} {ds : List Device} {d : Device} :
    findDevice port ds = some d ↔ FirstAt port d ds := by
  induction ds with
  | nil => simp [findDevice, FirstAt]
  | cons x rest ih =>
    by_cases hx : x.port = port
    · simp only [findDevice, hx, if_true, Option.some.injEq]
      constructor
      · rintro rfl
        exact ⟨[], rest, rfl, hx, by simp⟩
      · rintro ⟨_ | ⟨y, before⟩, after, h, -, hb⟩
        · exact (List.cons.inj h).1
        · obtain ⟨rfl, -⟩ := List.cons.inj h
          exact absurd hx (hb x (by simp))
    · simp only [findDevice, hx, if_false, ih]
      constructor
      · rintro ⟨before, after, rfl, hd, hb⟩
        exact ⟨x :: before, after, rfl, hd, by simpa using ⟨hx, hb⟩⟩
      · rintro ⟨_ | ⟨y, before⟩, after, h, hd, hb⟩
        · obtain ⟨rfl, -⟩ := List.cons.inj h
          exact absurd hd hx
        · exact ⟨before, after, (List.cons.inj h).2, hd, fun e he => hb e (by simp [he])⟩

/-- The device a lookup finds is at the port and in the registry. -/
theorem findDevice_some {port : Byte} {ds : List Device} {d : Device} (h : findDevice port ds = some d) :
    d.port = port ∧ d ∈ ds := by
  obtain ⟨before, after, rfl, hd, -⟩ := findDevice_eq_some_iff.1 h
  exact ⟨hd, by simp⟩

/-- A lookup fails exactly when no registered device has the port. -/
theorem findDevice_none {port : Byte} {ds : List Device} :
    findDevice port ds = none ↔ ∀ d ∈ ds, d.port ≠ port := by
  induction ds with
  | nil => simp [findDevice]
  | cons x rest ih => by_cases hx : x.port = port <;> simp [findDevice, hx, ih]

end Sys2Proof.Machine
end

