-- ==== Sys2Proof/Laws/Ops.lean ====
section
/-! SUPPORT. For each shared operation of Machine/Ops.lean, Operands.lean and Fetch.lean, what it can do, said once. -/

namespace Sys2Proof.Machine

@[simp] theorem Access.andThen_done {α β : Type} (v : α) (s : State) (k : α → State → Access β) :
    (Access.done v s).andThen k = k v s := rfl

@[simp] theorem Access.andThen_raised {α β : Type} (e : Error) (s : State) (k : α → State → Access β) :
    (Access.raised e s : Access α).andThen k = .raised e s := rfl

/-- A sequence that is done has both parts done. -/
theorem Access.andThen_eq_done {α β : Type} {x : Access α} {k : α → State → Access β} {v : β} {t : State}
    (h : x.andThen k = .done v t) : ∃ u s, x = .done u s ∧ k u s = .done v t := by
  cases x with
  | done u s => exact ⟨u, s, rfl, h⟩
  | raised e s => cases h

/-- A sequence that raises does so in its first part or in its second. -/
theorem Access.andThen_eq_raised {α β : Type} {x : Access α} {k : α → State → Access β} {e : Error} {t : State}
    (h : x.andThen k = .raised e t) : x = .raised e t ∨ ∃ u s, x = .done u s ∧ k u s = .raised e t := by
  cases x with
  | done u s => exact .inr ⟨u, s, rfl, h⟩
  | raised e' s => cases h; exact .inl rfl

theorem memRead_mapped {a : Addr} {s : State} (h : mapped s.params a = true) :
    memRead a s = .done ((hostTurn s).peek a) (hostTurn s) := by simp [memRead, h]

theorem memRead_unmapped {a : Addr} {s : State} (h : mapped s.params a = false) :
    memRead a s = .raised (.memoryAddress a) (hostTurn s) := by simp [memRead, h]

theorem memWrite_mapped {a : Addr} {v : Byte} {s : State} (h : mapped s.params a = true) :
    memWrite a v s = .done () ((hostTurn s).poke a v) := by simp [memWrite, h]

theorem memWrite_unmapped {a : Addr} {v : Byte} {s : State} (h : mapped s.params a = false) :
    memWrite a v s = .raised (.memoryAddress a) (hostTurn s) := by simp [memWrite, h]

/-- What a memory read can do: the host's turn and nothing else. -/
theorem memRead_cases (a : Addr) (s : State) :
    (mapped s.params a = true ∧ memRead a s = .done ((hostTurn s).peek a) (hostTurn s)) ∨
      (mapped s.params a = false ∧ memRead a s = .raised (.memoryAddress a) (hostTurn s)) := by
  cases h : mapped s.params a
  · exact .inr ⟨rfl, memRead_unmapped h⟩
  · exact .inl ⟨rfl, memRead_mapped h⟩

/-- What a memory write can do: the host's turn, and one byte if the address is mapped. -/
theorem memWrite_cases (a : Addr) (v : Byte) (s : State) :
    (mapped s.params a = true ∧ memWrite a v s = .done () ((hostTurn s).poke a v)) ∨
      (mapped s.params a = false ∧ memWrite a v s = .raised (.memoryAddress a) (hostTurn s)) := by
  cases h : mapped s.params a
  · exact .inr ⟨rfl, memWrite_unmapped h⟩
  · exact .inl ⟨rfl, memWrite_mapped h⟩

/-- The state in which a device's hook has returned: the call is logged and the host has had its turn. -/
def afterHook (c : BusCall) (s : State) : State := hostTurn ((hostTurn s).logCall c)

theorem afterHook_sameCore (c : BusCall) (s : State) : SameCore s (afterHook c s) :=
  (hostTurn_sameCore s).trans
    (SameCore.trans (t := (hostTurn s).logCall c) ⟨rfl, rfl, rfl, rfl, rfl⟩ (hostTurn_sameCore _))

/-- What a bus read can do. -/
theorem busReceive_cases (port : Byte) (s : State) :
    (∃ d, findDevice port (hostTurn s).devices = some d ∧
        busReceive port s = .done (Config.deviceAnswer (afterHook (.receive d s.snapshot) s).busLog)
          (afterHook (.receive d s.snapshot) s)) ∨
      (findDevice port (hostTurn s).devices = none ∧
        busReceive port s = .raised (.deviceNotPresent port) (hostTurn s)) := by
  have snap : (hostTurn s).snapshot = s.snapshot := by simp [State.snapshot]
  cases h : findDevice port (hostTurn s).devices with
  | none => exact .inr ⟨rfl, by simp [busReceive, h]⟩
  | some d => exact .inl ⟨d, rfl, by simp [busReceive, h, afterHook, snap]⟩

/-- What a bus write can do. -/
theorem busSend_cases (port v : Byte) (s : State) :
    (∃ d, findDevice port (hostTurn s).devices = some d ∧
        busSend port v s = .done () (afterHook (.send d s.snapshot v) s)) ∨
      (findDevice port (hostTurn s).devices = none ∧
        busSend port v s = .raised (.deviceNotPresent port) (hostTurn s)) := by
  have snap : (hostTurn s).snapshot = s.snapshot := by simp [State.snapshot]
  cases h : findDevice port (hostTurn s).devices with
  | none => exact .inr ⟨rfl, by simp [busSend, h]⟩
  | some d => exact .inl ⟨d, rfl, by simp [busSend, h, afterHook, snap]⟩

theorem regIndex_valid {r : RegField} (h : r.toNat < 8) : regIndex r = some ⟨r.toNat, h⟩ := by simp [regIndex, h]

theorem regIndex_invalid {r : RegField} (h : 8 ≤ r.toNat) : regIndex r = none := by
  simp [regIndex, Nat.not_lt.2 h]

theorem regIndex_eq_some {r : RegField} {i : RegIndex} (h : regIndex r = some i) : r.toNat = i := by
  unfold regIndex at h
  split at h
  · cases h; rfl
  · cases h

theorem withReg_valid {r : RegField} (h : r.toNat < 8) (s : State) (k : RegIndex → Access Nat) :
    withReg r s k = k ⟨r.toNat, h⟩ := by simp [withReg, regIndex_valid h]

theorem withReg_invalid {r : RegField} (h : 8 ≤ r.toNat) (s : State) (k : RegIndex → Access Nat) :
    withReg r s k = .raised (.invalidRegister r) s := by simp [withReg, regIndex_invalid h]

/-- What a register check can do. -/
theorem withReg_cases (r : RegField) (s : State) (k : RegIndex → Access Nat) :
    (∃ h : r.toNat < 8, withReg r s k = k ⟨r.toNat, h⟩) ∨
      (8 ≤ r.toNat ∧ withReg r s k = .raised (.invalidRegister r) s) := by
  rcases Nat.lt_or_ge r.toNat 8 with h | h
  · exact .inl ⟨h, withReg_valid h s k⟩
  · exact .inr ⟨h, withReg_invalid h s k⟩

@[simp] theorem retire_done (len : Nat) (s : State) :
    retire (.done len s) = .next (if len = 0 then s else s.setPc (s.pc + BitVec.ofNat 16 len)) := rfl

@[simp] theorem retire_raised (e : Error) (s : State) : retire (.raised e s) = .next (raise e s) := rfl

/-- Ending an instruction always answers a next state: the handler's with `pc` moved on, or the error's. -/
theorem retire_next (x : Access Nat) :
    ∃ t, retire x = .next t ∧
      ((∃ len u, x = .done len u ∧ t = if len = 0 then u else u.setPc (u.pc + BitVec.ofNat 16 len)) ∨
        ∃ e u, x = .raised e u ∧ t = raise e u) := by
  cases x with
  | done len u => exact ⟨_, rfl, .inl ⟨len, u, rfl, rfl⟩⟩
  | raised e u => exact ⟨_, rfl, .inr ⟨e, u, rfl, rfl⟩⟩

/-- A fetch from mapped addresses with no host operation pending reads the four bytes and changes nothing. -/
theorem fetch_idle {s : State} (ha : s.agenda = [])
    (hm : mapped s.params s.pc = true ∧ mapped s.params (s.pc + 1) = true ∧ mapped s.params (s.pc + 2) = true ∧
      mapped s.params (s.pc + 3) = true) :
    fetch s = .done ⟨s.peek s.pc, s.peek (s.pc + 1), s.peek (s.pc + 2), s.peek (s.pc + 3)⟩ s := by
  obtain ⟨h0, h1, h2, h3⟩ := hm
  simp only [fetch, memRead_mapped h0, memRead_mapped h1, memRead_mapped h2, memRead_mapped h3, hostTurn_idle ha,
    Access.andThen_done]

/-- What a fetch can do to the core's own state: nothing. -/
theorem fetch_sameCore {s t : State} {w : Window} (h : fetch s = .done w t) : SameCore s t := by
  unfold fetch at h
  obtain ⟨b0, s0, h0, h⟩ := Access.andThen_eq_done h
  obtain ⟨b1, s1, h1, h⟩ := Access.andThen_eq_done h
  obtain ⟨b2, s2, h2, h⟩ := Access.andThen_eq_done h
  obtain ⟨b3, s3, h3, h⟩ := Access.andThen_eq_done h
  cases h
  have read : ∀ {a b u v}, memRead a u = .done b v → SameCore u v := by
    intro a b u v hr
    rcases memRead_cases a u with ⟨-, e⟩ | ⟨-, e⟩ <;> rw [e] at hr <;> cases hr
    exact hostTurn_sameCore u
  exact (((read h0).trans (read h1)).trans (read h2)).trans (read h3)

end Sys2Proof.Machine
end

