-- ==== Sys2Proof/Laws/PerInstr.lean ====
section
/-! SUPPORT. Facts of every instruction as syntax, one lemma per constructor. -/

namespace Sys2Proof.Laws.EncodedLength

theorem formLength_bounds (o : Operation) (m : AddressingMode) : 2 ≤ formLength o m ∧ formLength o m ≤ 4 := by
  cases m <;> simp only [formLength] <;> first | decide | (split <;> decide)

/-- An instruction's encoding has the length of its form, which is 2, 3 or 4 bytes (30_encoding.md R80, R93). -/
def Statement (i : Instr) : Prop :=
  (∀ m : OpMap, (encodeWith m i).length = i.length) ∧ 2 ≤ i.length ∧ i.length ≤ 4

theorem movImm (rd : RegField) (imm : Byte) : Statement (.movImm rd imm) := ⟨fun _ => rfl, formLength_bounds _ _⟩
theorem movReg (rd rs : RegField) : Statement (.movReg rd rs) := ⟨fun _ => rfl, formLength_bounds _ _⟩
theorem jnzReg (rc : RegField) : Statement (.jnzReg rc) := ⟨fun _ => rfl, formLength_bounds _ _⟩
theorem jnzImm (imm : Byte) : Statement (.jnzImm imm) := ⟨fun _ => rfl, formLength_bounds _ _⟩
theorem lwPair (rd : RegField) : Statement (.lwPair rd) := ⟨fun _ => rfl, formLength_bounds _ _⟩
theorem lwAbs (rd : RegField) (addr : Addr) : Statement (.lwAbs rd addr) := ⟨fun _ => rfl, formLength_bounds _ _⟩
theorem swPair (rs : RegField) : Statement (.swPair rs) := ⟨fun _ => rfl, formLength_bounds _ _⟩
theorem swAbs (rs : RegField) (addr : Addr) : Statement (.swAbs rs addr) := ⟨fun _ => rfl, formLength_bounds _ _⟩
theorem pushReg (rs : RegField) : Statement (.pushReg rs) := ⟨fun _ => rfl, formLength_bounds _ _⟩
theorem pushImm (imm : Byte) : Statement (.pushImm imm) := ⟨fun _ => rfl, formLength_bounds _ _⟩
theorem popReg (rd : RegField) : Statement (.popReg rd) := ⟨fun _ => rfl, formLength_bounds _ _⟩
theorem inImm (rd : RegField) (port : Byte) : Statement (.inImm rd port) := ⟨fun _ => rfl, formLength_bounds _ _⟩
theorem inReg (rd rp : RegField) : Statement (.inReg rd rp) := ⟨fun _ => rfl, formLength_bounds _ _⟩
theorem outImm (rs : RegField) (port : Byte) : Statement (.outImm rs port) := ⟨fun _ => rfl, formLength_bounds _ _⟩
theorem outReg (rs rp : RegField) : Statement (.outReg rs rp) := ⟨fun _ => rfl, formLength_bounds _ _⟩
theorem adcImm (ra : RegField) (imm : Byte) : Statement (.adcImm ra imm) := ⟨fun _ => rfl, formLength_bounds _ _⟩
theorem adcReg (ra rb : RegField) : Statement (.adcReg ra rb) := ⟨fun _ => rfl, formLength_bounds _ _⟩
theorem sbbImm (ra : RegField) (imm : Byte) : Statement (.sbbImm ra imm) := ⟨fun _ => rfl, formLength_bounds _ _⟩
theorem sbbReg (ra rb : RegField) : Statement (.sbbReg ra rb) := ⟨fun _ => rfl, formLength_bounds _ _⟩
theorem cmpImm (ra : RegField) (imm : Byte) : Statement (.cmpImm ra imm) := ⟨fun _ => rfl, formLength_bounds _ _⟩
theorem cmpReg (ra rb : RegField) : Statement (.cmpReg ra rb) := ⟨fun _ => rfl, formLength_bounds _ _⟩
theorem andImm (ra : RegField) (imm : Byte) : Statement (.andImm ra imm) := ⟨fun _ => rfl, formLength_bounds _ _⟩
theorem andReg (ra rb : RegField) : Statement (.andReg ra rb) := ⟨fun _ => rfl, formLength_bounds _ _⟩
theorem orImm (ra : RegField) (imm : Byte) : Statement (.orImm ra imm) := ⟨fun _ => rfl, formLength_bounds _ _⟩
theorem orReg (ra rb : RegField) : Statement (.orReg ra rb) := ⟨fun _ => rfl, formLength_bounds _ _⟩
theorem norImm (ra : RegField) (imm : Byte) : Statement (.norImm ra imm) := ⟨fun _ => rfl, formLength_bounds _ _⟩
theorem norReg (ra rb : RegField) : Statement (.norReg ra rb) := ⟨fun _ => rfl, formLength_bounds _ _⟩
theorem bankReg (rs : RegField) : Statement (.bankReg rs) := ⟨fun _ => rfl, formLength_bounds _ _⟩
theorem bankImm (imm : Byte) : Statement (.bankImm imm) := ⟨fun _ => rfl, formLength_bounds _ _⟩

end Sys2Proof.Laws.EncodedLength
end

