-- ==== Sys2Proof/Tests/Slice0.lean ====
section
/-! SUPPORT. Small checks of the model: ill-formed terms refused, words of every form decoded, one step of every
instruction on the vectors of spec/95_test_vectors.md (V<n>), and for each obligation with hypotheses a state that meets
them all. Expected values are the spec's own, or worked out from its rules by hand. -/

open Sys2Proof Sys2Proof.Machine

namespace Sys2Proof.Tests

/-! ## Helpers -/

/-- The registers by name, in the order of the default REGMAP. -/
def named (a b c d z x y f : Byte) : Vector Byte 8 := #v[a, b, c, d, z, x, y, f]

/-- The reset state with registers and a program at `pc`. -/
def ready (regs : Vector Byte 8) (code : List Byte) : State := { State.reset with regs := regs }.pokeAll 0 code

/-- What a step of a state answers, read by `f`; none for a stop. -/
def after {α : Type} (s : State) (f : State → α) : Option α :=
  match step s with
  | .next t => some (f t)
  | _ => none

/-- The error a step records. -/
def errorOf (t : State) : Option Error :=
  match t.status with
  | .running => none
  | .faulted r => some r.error

/-- The reset state with a hole of one address, 0x9000, in the addressable range. -/
def holed : State := { State.reset with params := { defaultParams with unmapped := [(0x9000, 0x9000)] } }

/-- A device at port 1. -/
def device : Device := { port := 1, name := "K" }

/-- The reset state with that device. -/
def wired : State := { State.reset with devices := [device] }

/-! ## WellFormed: an ill-formed term for each register field -/

theorem test_ill_formed_one_field_refused :
    ([.movImm 8 0, .jnzReg 9, .lwPair 10, .lwAbs 11 0, .swPair 12, .swAbs 13 0, .pushReg 14, .popReg 15,
      .inImm 8 1, .outImm 8 1, .adcImm 8 0, .sbbImm 8 0, .cmpImm 8 0, .andImm 8 0, .orImm 8 0, .norImm 8
      0, .bankReg 8] : List Instr).all
      (fun i => !i.wellFormed) = true := by decide

theorem test_ill_formed_either_of_two_fields_refused :
    ([.movReg 8 0, .movReg 0 8, .inReg 7 8, .outReg 7 15, .adcReg 0 9, .sbbReg 0 9, .cmpReg 0 9, .andReg 0
      9, .orReg 0 9, .norReg 0 9] : List Instr).all
      (fun i => !i.wellFormed) = true := by decide

theorem test_well_formed_at_the_last_register :
    ([.movImm 7 0xFF, .movReg 7 7, .jnzImm 0xFF, .pushImm 0xFF, .bankImm 0xFF, .popReg 7] : List Instr).all
      (fun i => i.wellFormed) = true := by decide

/-! ## Decode: a word of every form, written out from 30_encoding.md R81 to R89, R95 (operation code, mode, nibbles of
byte 1, low address byte first) -/

theorem test_decode_movImm : decode ⟨0b00000010, 0b00000000, 0b00000101, 0xEE⟩ = .form (.movImm 0 0x05) := by decide
theorem test_decode_movReg : decode ⟨0b00000011, 0b00000001, 0xEE, 0xEE⟩ = .form (.movReg 1 0) := by decide
theorem test_decode_jnzReg : decode ⟨0b00000100, 0b00000010, 0xEE, 0xEE⟩ = .form (.jnzReg 2) := by decide
theorem test_decode_jnzImm : decode ⟨0b00000101, 0b00000001, 0xEE, 0xEE⟩ = .form (.jnzImm 0x01) := by decide
theorem test_decode_lwPair : decode ⟨0b00001000, 0b00000101, 0xEE, 0xEE⟩ = .form (.lwPair 5) := by decide
theorem test_decode_lwAbs : decode ⟨0b00001010, 0b00000000, 0b00110100, 0b00010010⟩ = .form (.lwAbs 0 0x1234) := by decide
theorem test_decode_swPair : decode ⟨0b00001100, 0b00000110, 0xEE, 0xEE⟩ = .form (.swPair 6) := by decide
theorem test_decode_swAbs : decode ⟨0b00001110, 0b00000011, 0b00000000, 0b00000001⟩ = .form (.swAbs 3 0x0100) := by decide
theorem test_decode_pushReg : decode ⟨0b00010000, 0b00000001, 0xEE, 0xEE⟩ = .form (.pushReg 1) := by decide
theorem test_decode_pushImm : decode ⟨0b00010001, 0b10101011, 0xEE, 0xEE⟩ = .form (.pushImm 0xAB) := by decide
theorem test_decode_popReg : decode ⟨0b00010100, 0b00000111, 0xEE, 0xEE⟩ = .form (.popReg 7) := by decide
theorem test_decode_inImm : decode ⟨0b00011010, 0b00000001, 0b00000010, 0xEE⟩ = .form (.inImm 1 0x02) := by decide
theorem test_decode_inReg : decode ⟨0b00011011, 0b00010000, 0xEE, 0xEE⟩ = .form (.inReg 0 1) := by decide
theorem test_decode_outImm : decode ⟨0b00011110, 0b00000000, 0b00000001, 0xEE⟩ = .form (.outImm 0 0x01) := by decide
theorem test_decode_outReg : decode ⟨0b00011111, 0b00100000, 0xEE, 0xEE⟩ = .form (.outReg 0 2) := by decide
theorem test_decode_adcImm : decode ⟨0b00100010, 0b00000111, 0b00001111, 0xEE⟩ = .form (.adcImm 7 0x0F) := by decide
theorem test_decode_adcReg : decode ⟨0b00100011, 0b00010000, 0xEE, 0xEE⟩ = .form (.adcReg 0 1) := by decide
theorem test_decode_sbbImm : decode ⟨0b00100110, 0b00000010, 0b00000001, 0xEE⟩ = .form (.sbbImm 2 0x01) := by decide
theorem test_decode_sbbReg : decode ⟨0b00100111, 0b00110010, 0xEE, 0xEE⟩ = .form (.sbbReg 2 3) := by decide
theorem test_decode_cmpImm : decode ⟨0b00101010, 0b00000111, 0b00000011, 0xEE⟩ = .form (.cmpImm 7 0x03) := by decide
theorem test_decode_cmpReg : decode ⟨0b00101011, 0b00100001, 0xEE, 0xEE⟩ = .form (.cmpReg 1 2) := by decide
theorem test_decode_andImm : decode ⟨0b00101110, 0b00000000, 0b00001111, 0xEE⟩ = .form (.andImm 0 0x0F) := by decide
theorem test_decode_andReg : decode ⟨0b00101111, 0b01100101, 0xEE, 0xEE⟩ = .form (.andReg 5 6) := by decide
theorem test_decode_orImm : decode ⟨0b00110010, 0b00000000, 0b11111111, 0xEE⟩ = .form (.orImm 0 0xFF) := by decide
theorem test_decode_orReg : decode ⟨0b00110011, 0b00010000, 0xEE, 0xEE⟩ = .form (.orReg 0 1) := by decide
theorem test_decode_norImm : decode ⟨0b00110110, 0b00000000, 0b00001111, 0xEE⟩ = .form (.norImm 0 0x0F) := by decide
theorem test_decode_norReg : decode ⟨0b00110111, 0b01000011, 0xEE, 0xEE⟩ = .form (.norReg 3 4) := by decide
theorem test_decode_bankReg : decode ⟨0b00111000, 0b00000000, 0xEE, 0xEE⟩ = .form (.bankReg 0) := by decide
theorem test_decode_bankImm : decode ⟨0b00111001, 0b00000011, 0xEE, 0xEE⟩ = .form (.bankImm 0x03) := by decide

/-- The ignored high nibble of byte 1 (V10). -/
theorem test_decode_ignores_high_nibble : decode ⟨0x02, 0xF0, 0x07, 0x00⟩ = .form (.movImm 0 0x07) := by decide
/-- Decode leaves register fields unjudged (V9). -/
theorem test_decode_keeps_bad_field : decode ⟨0x02, 0x08, 0x00, 0x00⟩ = .form (.movImm 8 0x00) := by decide
/-- V5, V7. -/
theorem test_decode_rejects_by_name :
    decode ⟨0x3A, 0, 0, 0⟩ = .error (.invalidAddressingMode 14 .r1i1) ∧
      decode ⟨0xFF, 0xFF, 0xFF, 0xFF⟩ = .error (.invalidOperation 63) := by decide
/-- Of the values of byte 0 below 0x3C, 29 are forms (30_encoding.md R95). -/
theorem test_decode_has_29_forms :
    (List.range 0x3C).countP (fun n => match decode ⟨BitVec.ofNat 8 n, 0, 0, 0⟩ with | .form _ => true | _ => false)
      = 29 := by decide
/-- The other 31 are an operation in a mode it does not support (30_encoding.md R95). -/
theorem test_decode_has_31_invalid_modes :
    (List.range 0x3C).countP (fun n => match decode ⟨BitVec.ofNat 8 n, 0, 0, 0⟩ with
      | .error (.invalidAddressingMode _ _) => true | _ => false) = 31 := by decide
/-- Words as the opcode table numbers them, byte 0 the most significant (30_encoding.md R102). -/
theorem test_table_words :
    decodeTableWord 24 0x020105 = some (.movImm 1 0x05) ∧ decodeTableWord 16 0x0310 = some (.movReg 0 1)
      ∧ decodeTableWord 32 0x0E030001 = some (.swAbs 3 0x0100) ∧ decodeTableWord 16 0x3C00 = none := by decide

/-! ## One step of every instruction -/

/-- V16. -/
theorem test_movImm : after (ready (named 0 9 0 0 0 0 0 0x0F) [0x02, 0x00, 0x05]) (fun t => (t.reg 0, t.reg 1, t.flagReg, t.pc)) = some (5, 9, 0x0F, 3) := by decide
/-- V17. -/
theorem test_movReg : after (ready (named 0x7F 0 0 0 0 0 0 0) [0x03, 0x01]) (fun t => (t.reg 1, t.reg 0, t.pc)) = some (0x7F, 0x7F, 2) := by decide
/-- V85: F is tested as a whole byte. -/
theorem test_jnzReg_taken : after (ready (named 0 0 0 0 0 0x09 0x02 0x10) [0x04, 0x07]) (fun t => (t.pc, t.flagReg)) = some (0x0209, 0x10) := by decide
/-- V81. -/
theorem test_jnzReg_not_taken : after (ready (named 0 0 0 0 0 9 0 0) [0x04, 0x02]) (fun t => t.pc) = some 2 := by decide
/-- V82. -/
theorem test_jnzImm_taken : after (ready (named 0 0 0 0 0 0 2 0) [0x05, 0x01]) (fun t => t.pc) = some 0x0200 := by decide
/-- V84: the alternative reading of the condition. -/
theorem test_jnzImm_condition_one : after ({ ready (named 0 0 0 0 0 0 1 0) [0x05, 0x00] with params := { defaultParams with jnzImmCond := .one } }) (fun t => t.pc) = some 0x0100 := by decide
/-- V62: the address is the old pair. -/
theorem test_lwPair_into_X : after ((ready (named 0 0 0 0 0 0 1 0) [0x08, 0x05]).poke 0x0100 0x2A) (fun t => (t.reg 5, t.reg 6, t.pc)) = some (0x2A, 1, 2) := by decide
/-- V61. -/
theorem test_lwAbs : after ((ready (named 0 0 0 0 0 0 0 0) [0x0A, 0x00, 0x34, 0x12]).poke 0x1234 0x77) (fun t => (t.reg 0, t.pc)) = some (0x77, 4) := by decide
/-- V65. -/
theorem test_swPair_banked : after ({ ready (named 0x99 0 0 0 0 0x10 0x80 0) [0x0C, 0x00] with bank := 1 }) (fun t => (t.readAs 1 0x8010, t.readAs 0 0x8010, t.pc)) = some (0x99, 0, 2) := by decide
/-- V63. -/
theorem test_swAbs : after (ready (named 0 0 0 6 0 0 0 0) [0x0E, 0x03, 0x00, 0x01]) (fun t => (t.peek 0x0100, t.peek 0x0101, t.pc)) = some (6, 0, 4) := by decide
/-- V72. -/
theorem test_pushReg_last : after ({ ready (named 0 0x33 0 0 0 0 0 0) [0x10, 0x01] with sp := 0xFEFF }) (fun t => (t.peek 0xFEFF, t.sp, t.pc)) = some (0x33, 0xFF00, 2) := by decide
/-- V71. -/
theorem test_pushImm : after (ready (named 0 0 0 0 0 0 0 0) [0x11, 0xAB]) (fun t => (t.peek 0xFC00, t.sp)) = some (0xAB, 0xFC01) := by decide
/-- V73. -/
theorem test_pushImm_overflow : after ({ ready (named 0 0 0 0 0 0 0 0) [0x11, 0x01] with sp := 0xFF00 }) (fun t => (errorOf t, t.peek 0xFF00, t.pc, t.sp)) = some (some (.stackOverflow 0xFF00), 0, 0, 0xFF00) := by decide
/-- V74. -/
theorem test_popReg : after ({ (ready (named 0 0 0 0 0 0 0 0) [0x14, 0x01]).poke 0xFC00 5 with sp := 0xFC01 }) (fun t => (t.reg 1, t.peek 0xFC00, t.sp, t.pc)) = some (5, 0, 0xFC00, 2) := by decide
/-- V75. -/
theorem test_popReg_underflow : after (ready (named 1 0 0 0 0 0 0 0) [0x14, 0x00]) (fun t => (errorOf t, t.reg 0, t.pc)) = some (some (.stackUnderflow 0xFC00), 1, 0) := by decide
/-- V94: the port is read before the destination is written; the byte is the device's answer, whatever it is. -/
theorem test_inReg :
    after { ready (named 0 1 0 0 0 0 0 0) [0x1B, 0x11] with devices := [device] } (fun t => (t.reg 1, t.pc))
      = some (Config.deviceAnswer [.receive device ⟨named 0 1 0 0 0 0 0 0, 0, 0xFC00⟩], 2) := by rfl
/-- V91. -/
theorem test_inImm :
    after { ready (named 0 0 0 0 0 0 0 0) [0x1A, 0x01, 0x01] with devices := [device] } (fun t => (t.reg 1, t.pc))
      = some (Config.deviceAnswer [.receive device ⟨named 0 0 0 0 0 0 0 0, 0, 0xFC00⟩], 3) := by rfl
/-- V95. -/
theorem test_inImm_absent : after (ready (named 0x11 0 0 0 0 0 0 0) [0x1A, 0x00, 0x02]) (fun t => (errorOf t, t.reg 0)) = some (some (.deviceNotPresent 2), 0x11) := by decide
/-- Of two devices at one port the first registered answers (45_io.md R171). -/
theorem test_inReg_first_of_two :
    after { ready (named 0 1 0 0 0 0 0 0) [0x1B, 0x10] with devices := [⟨0, "J"⟩, device, ⟨1, "L"⟩] } (fun t => t.busLog)
      = some [.receive device ⟨named 0 1 0 0 0 0 0 0, 0, 0xFC00⟩] := by decide
/-- Of two devices at one port the first registered is sent to (45_io.md R172). -/
theorem test_outReg_first_of_two :
    after { ready (named 9 1 0 0 0 0 0 0) [0x1F, 0x10] with devices := [⟨0, "J"⟩, device, ⟨1, "L"⟩] } (fun t => t.busLog)
      = some [.send device ⟨named 9 1 0 0 0 0 0 0, 0, 0xFC00⟩ 9] := by decide
/-- V90. -/
theorem test_outImm : after ({ ready (named 0x48 0 0 0 0 0 0 0) [0x1E, 0x00, 0x01] with devices := [device] }) (fun t => (t.busLog, t.pc)) = some ([.send device ⟨named 0x48 0 0 0 0 0 0 0, 0, 0xFC00⟩ 0x48], 3) := by decide
/-- V92. -/
theorem test_outReg : after ({ ready (named 0x48 0 1 0 0 0 0 0) [0x1F, 0x20] with devices := [device] }) (fun t => (t.busLog, t.pc)) = some ([.send device ⟨named 0x48 0 1 0 0 0 0 0, 0, 0xFC00⟩ 0x48], 2) := by decide
/-- V96. -/
theorem test_outImm_removed : after (applyHost (.remove 1) { ready (named 0 0 0 0 0 0 0 0) [0x1E, 0x00, 0x01] with devices := [device] }) (fun t => errorOf t) = some (some (.deviceNotPresent 1)) := by decide
/-- V36: only CARRY of F is written. -/
theorem test_adcImm : after (ready (named 0x10 0 0 0 0 0 0 0x0B) [0x22, 0x00, 0x01]) (fun t => (t.reg 0, t.flagReg, t.pc)) = some (0x11, 0x0B, 3) := by decide
/-- V37. -/
theorem test_adcImm_into_F : after (ready (named 0 0 0 0 0 0 0 0) [0x22, 0x07, 0x0F]) (fun t => t.flagReg) = some 0x0B := by decide
/-- V34. -/
theorem test_adcReg : after (ready (named 0x12 0x34 0 0 0 0 0 4) [0x23, 0x10]) (fun t => (t.reg 0, t.reg 1, t.flagReg, t.pc)) = some (0x47, 0x34, 0, 2) := by decide
/-- V35. -/
theorem test_adcReg_same : after (ready (named 0x80 0 0 0 0 0 0 0) [0x23, 0x00]) (fun t => (t.reg 0, t.flagReg)) = some (0, 4) := by decide
/-- V42. -/
theorem test_sbbImm : after (ready (named 0 0 0 0 0 0 0 8) [0x26, 0x00, 0xFF]) (fun t => (t.reg 0, t.flagReg, t.pc)) = some (0, 8, 3) := by decide
/-- V46. -/
theorem test_sbbImm_into_F : after (ready (named 0 0 0 0 0 0 0 8) [0x26, 0x07, 0x00]) (fun t => t.flagReg) = some 7 := by decide
/-- V45. -/
theorem test_sbbReg : after (ready (named 0 0 0x50 0x20 0 0 0 7) [0x27, 0x32]) (fun t => (t.reg 2, t.reg 3, t.flagReg, t.pc)) = some (0x30, 0x20, 7, 2) := by decide
/-- V44. -/
theorem test_sbbReg_same : after (ready (named 0x37 0 0 0 0 0 0 8) [0x27, 0x00]) (fun t => (t.reg 0, t.flagReg)) = some (0xFF, 8) := by decide
/-- V23. -/
theorem test_cmpImm_unsigned : after (ready (named 0 0 0 0 0 0 0 0) [0x2A, 0x00, 0xFF]) (fun t => (t.flagReg, t.reg 0, t.pc)) = some (1, 0, 3) := by decide
/-- V27. -/
theorem test_cmpImm_of_F : after (ready (named 0 0 0 0 0 0 0 3) [0x2A, 0x07, 0x03]) (fun t => t.flagReg) = some 2 := by decide
/-- V25. -/
theorem test_cmpReg : after (ready (named 0x80 0x7F 0 0 0 0 0 0x0C) [0x2B, 0x10]) (fun t => (t.flagReg, t.reg 0, t.reg 1, t.pc)) = some (0x0C, 0x80, 0x7F, 2) := by decide
/-- V50. -/
theorem test_andImm : after (ready (named 0x3C 0 0 0 0 0 0 0x0F) [0x2E, 0x00, 0x0F]) (fun t => (t.reg 0, t.flagReg, t.pc)) = some (0x0C, 0x0F, 3) := by decide
/-- 46_alu.md R198, worked by hand. -/
theorem test_andReg : after (ready (named 0 0 0 0 0 0x3C 0x0F 0x0F) [0x2F, 0x65]) (fun t => (t.reg 5, t.reg 6, t.flagReg, t.pc)) = some (0x0C, 0x0F, 0x0F, 2) := by decide
/-- V55. -/
theorem test_orImm : after (ready (named 0 0 0 0 0 0 0 0) [0x32, 0x07, 0x04]) (fun t => (t.flagReg, t.pc)) = some (4, 3) := by decide
/-- V53. -/
theorem test_orReg : after (ready (named 0x30 0x0F 0 0 0 0 0 0) [0x33, 0x10]) (fun t => (t.reg 0, t.reg 1, t.pc)) = some (0x3F, 0x0F, 2) := by decide
/-- V56. -/
theorem test_norImm : after (ready (named 0x30 0 0 0 0 0 0 0) [0x36, 0x00, 0x0F]) (fun t => (t.reg 0, t.pc)) = some (0xC0, 3) := by decide
/-- V58. -/
theorem test_norReg : after (ready (named 0x5A 0 0 0 0 0 0 0) [0x37, 0x00]) (fun t => (t.reg 0, t.pc)) = some (0xA5, 2) := by decide
/-- V100. -/
theorem test_bankReg : after (ready (named 1 0 0 0 0 0 0 0) [0x38, 0x00]) (fun t => (t.bank, t.pc)) = some (1, 2) := by decide
/-- V103. -/
theorem test_bankImm_bad : after ({ ready (named 0 0 0 0 0 0 0 0) [0x39, 0x04] with bank := 2 }) (fun t => (errorOf t, t.bank, t.pc)) = some (some (.memoryBank 4), 2, 0) := by decide
/-- V102. -/
theorem test_bankImm_last : after (ready (named 0 0 0 0 0 0 0 0) [0x39, 0x03]) (fun t => t.bank) = some 3 := by decide

/-! ## The step -/

/-- V13. -/
theorem test_window_wraps : after ({ ({ State.reset with pc := 0xFFFF } : State).pokeAll 0xFFFF [0x02, 0x01, 0x42] with bank := 0 }) (fun t => (t.reg 1, t.pc)) = some (0x42, 2) := by decide
/-- V14. -/
theorem test_unmapped_byte_comes_before_decode : after ({ State.reset.pokeAll 0x10 [0x02, 0x00, 0x05] with pc := 0x10, params := { defaultParams with unmapped := [(0x12, 0x12)] } }) (fun t => (errorOf t, t.pc)) = some (some (.memoryAddress 0x12), 0x10) := by decide
/-- V8. -/
theorem test_decode_error_comes_before_register_error : after (ready (named 0 0 0 0 0 0 0 0) [0x3C, 0x08]) (fun t => errorOf t) = some (some (.invalidOperation 15)) := by decide
/-- V11. -/
theorem test_primary_field_is_checked_first : after (ready (named 0 0 0 0 0 0 0 0) [0x03, 0x99]) (fun t => errorOf t) = some (some (.invalidRegister 9)) := by decide
/-- V78. -/
theorem test_register_check_comes_before_overflow : after ({ ready (named 0 0 0 0 0 0 0 0) [0x10, 0x08] with sp := 0xFF00 }) (fun t => (errorOf t, t.sp)) = some (some (.invalidRegister 8), 0xFF00) := by decide
/-- P7d. -/
theorem test_empty_image_faults : after (State.reset) (fun t => (errorOf t, t.pc)) = some (some (.invalidAddressingMode 0 .r1i0), 0) := by decide
/-- A Faulted core has no step (40_cycle.md R117). -/
theorem test_faulted_core_stops :
    (match step (raise (.deviceNotPresent 2) State.reset) with | .fault _ => true | _ => false) = true := by decide
theorem test_withFetchWord_runs_the_word :
    after (State.reset.withFetchWord 24 0x020105) (fun t => (t.reg 1, t.pc)) = some (5, 3) := by decide

/-! ## Witnesses: for each obligation with hypotheses, inputs that meet them together, clause by clause -/

theorem witness_InvariantHoldsAtReset : defaultParams.wf = true := by decide

theorem reset_inv : State.reset.Inv := by decide

/-- A state with `sp` at its bound, the last bank selected and a byte in it, and a POP that runs. -/
def busy : State :=
  { (ready (named 0 0 0 0 0 0 0 0) [0x14, 0x01]).poke 0xFEFF 5 with sp := 0xFF00, bank := 3 }

theorem witness_StepKeepsInvariant : busy.Inv ∧ ∃ t, step busy = .next t ∧ t.sp = 0xFEFF := by
  refine ⟨by decide, _, rfl, by decide⟩

theorem witness_StepKeepsParameters : ∃ t, step busy = .next t := ⟨_, rfl⟩

theorem witness_StepRunsDecodedInstruction :
    (busy.status = .running ∧ ∃ w t, fetch { busy with agenda := [[.set 0x0001 2]] } = .done w t
        ∧ decodeWith busy.params.opMap w = .form (.popReg 2))
      ∧ busy.agenda = [] ∧ mapped busy.params busy.pc = true ∧ mapped busy.params (busy.pc + 1) = true
      ∧ mapped busy.params (busy.pc + 2) = true ∧ mapped busy.params (busy.pc + 3) = true
      ∧ decodeWith busy.params.opMap
          ⟨busy.peek busy.pc, busy.peek (busy.pc + 1), busy.peek (busy.pc + 2), busy.peek (busy.pc + 3)⟩
        = .form (.popReg 1) := by
  refine ⟨⟨by decide, _, _, rfl, by decide⟩, by decide⟩

theorem witness_OnlyFaultedCoreStops :
    State.reset.status = .running
      ∧ (raise (.deviceNotPresent 2) State.reset).status = .faulted ⟨.deviceNotPresent 2, 0⟩ := by decide

theorem witness_ErrorsArePrecise :
    State.reset.status = .running ∧ State.reset.agenda = []
      ∧ ∃ t, step State.reset = .next t ∧ t.status = .faulted ⟨.invalidAddressingMode 0 .r1i0, 0⟩ :=
  ⟨rfl, rfl, _, rfl, by decide⟩

/-- The reset state with one address out of the addressable range. -/
def without (a : Addr) : State := { State.reset with params := { defaultParams with unmapped := [(a, a)] } }

theorem witness_FetchErrorsComeBeforeDecodeErrors :
    (∀ a, (without a).status = .running ∧ (without a).agenda = [])
      ∧ mapped (without 0).params 0 = false
      ∧ (mapped (without 1).params 0 = true ∧ mapped (without 1).params 1 = false)
      ∧ (mapped (without 2).params 0 = true ∧ mapped (without 2).params 1 = true ∧ mapped (without 2).params 2 = false)
      ∧ (mapped (without 3).params 0 = true ∧ mapped (without 3).params 1 = true ∧ mapped (without 3).params 2 = true
        ∧ mapped (without 3).params 3 = false)
      ∧ (mapped (without 4).params 0 = true ∧ mapped (without 4).params 1 = true ∧ mapped (without 4).params 2 = true
        ∧ mapped (without 4).params 3 = true
        ∧ decodeWith (without 4).params.opMap ⟨(without 4).peek 0, 0, 0, 0⟩
          = .error (.invalidAddressingMode 0 .r1i0)) :=
  ⟨fun _ => ⟨rfl, rfl⟩, by decide⟩

theorem witness_PcMovesByLengthOrTakenJump :
    (∃ t, exec (.swAbs 0 0xFFFF) State.reset = .next t ∧ t.status = .running)
      ∧ ∃ t, exec (.jnzImm 1) State.reset = .next t ∧ t.status = .running :=
  ⟨⟨_, rfl, by decide⟩, _, rfl, by decide⟩

theorem witness_IllFormedInstructionRaisesInvalidRegister :
    (Instr.movReg 8 0).wellFormed = false ∧ (Instr.movReg 7 8).wellFormed = false := by decide

theorem witness_RegistersChangeOnlyAsListed :
    (∃ t, exec (.movImm 7 1) State.reset = .next t ∧ t.reg 7 ≠ State.reset.reg 7)
      ∧ ∃ t, exec (.cmpImm 0 0) State.reset = .next t ∧ t.reg 7 ≠ State.reset.reg 7 :=
  ⟨⟨_, rfl, by decide⟩, _, rfl, by decide⟩

theorem witness_OnlyPushAndPopMoveSp :
    (∃ t, exec (.pushImm 1) State.reset = .next t ∧ t.sp ≠ State.reset.sp)
      ∧ ∃ t, exec (.popReg 1) busy = .next t ∧ t.sp ≠ busy.sp :=
  ⟨⟨_, rfl, by decide⟩, _, rfl, by decide⟩

theorem witness_OnlyBankInstructionSelectsBank :
    State.reset.agenda = [] ∧ ∃ t, exec (.bankImm 3) State.reset = .next t ∧ t.bank ≠ State.reset.bank :=
  ⟨rfl, _, rfl, by decide⟩

theorem witness_MemoryChangesOnlyWhereStored :
    busy.agenda = [] ∧ Memory.wf busy.params.memReset busy.mem
      ∧ ∃ t, exec (.popReg 1) busy = .next t ∧ t.readAs 0 0xFEFF ≠ busy.readAs 0 0xFEFF :=
  ⟨rfl, by decide, _, rfl, by decide⟩

/-- The bounds of the register check that `RaisesOnBadField` and `RaisesOnBadFields` speak of. -/
theorem witness_badFields : 8 ≤ (8 : RegField).toNat ∧ 8 ≤ (15 : RegField).toNat ∧ (7 : RegField).toNat < 8 := by decide

theorem witness_MovImmediateCopiesByte : 8 ≤ (8 : RegField).toNat := by decide

theorem witness_MovRegisterCopiesRegister : 8 ≤ (8 : RegField).toNat ∧ (7 : RegField).toNat < 8 := by decide

/-- `holed` with the pair at an address. -/
def holedAt (x y : Byte) : State := { holed with regs := named 1 2 3 4 5 x y 7 }

theorem witness_LoadCopiesByteToRegister :
    mapped (holedAt 0xFF 0x8F).params (holedAt 0xFF 0x8F).xy = true
      ∧ mapped (holedAt 0x00 0x90).params (holedAt 0x00 0x90).xy = false
      ∧ mapped holed.params 0x9001 = true ∧ mapped holed.params 0x9000 = false ∧ 8 ≤ (8 : RegField).toNat := by decide

theorem witness_StoreCopiesRegisterToByte :
    Memory.wf holed.params.memReset holed.mem ∧ Memory.wf (holedAt 0x01 0x90).params.memReset (holedAt 0x01 0x90).mem
      ∧ mapped (holedAt 0x01 0x90).params (holedAt 0x01 0x90).xy = true
      ∧ mapped (holedAt 0x00 0x90).params (holedAt 0x00 0x90).xy = false
      ∧ mapped holed.params 0x8FFF = true ∧ mapped holed.params 0x9000 = false ∧ 8 ≤ (8 : RegField).toNat := by decide

/-- The reset state with `sp` given. -/
def stacked (sp : Addr) : State := { State.reset with sp := sp }

/-- The state `stacked` with one address out of the addressable range. -/
def stackedWithout (a sp : Addr) : State := { without a with sp := sp }

theorem witness_PushStoresAtSpAndIncrements :
    (Memory.wf (stacked 0xFEFF).params.memReset (stacked 0xFEFF).mem
        ∧ (stacked 0xFEFF).sp.toNat < (stacked 0xFEFF).params.stackEnd.toNat
        ∧ mapped (stacked 0xFEFF).params (stacked 0xFEFF).sp = true)
      ∧ (stackedWithout 0xFEFF 0xFEFF).sp.toNat < (stackedWithout 0xFEFF 0xFEFF).params.stackEnd.toNat
      ∧ mapped (stackedWithout 0xFEFF 0xFEFF).params (stackedWithout 0xFEFF 0xFEFF).sp = false := by decide

theorem witness_PopLoadsClearsAndDecrements :
    Memory.wf (stacked 0xFC01).params.memReset (stacked 0xFC01).mem
      ∧ (stacked 0xFC01).params.stack.toNat < (stacked 0xFC01).sp.toNat
      ∧ mapped (stacked 0xFC01).params ((stacked 0xFC01).sp - 1) = true := by decide

theorem witness_StackLimitsRaise :
    (stacked 0xFF00).params.stackEnd.toNat ≤ (stacked 0xFF00).sp.toNat
      ∧ (stacked 0xFC00).sp.toNat ≤ (stacked 0xFC00).params.stack.toNat
      ∧ (stackedWithout 0xFC00 0xFC01).params.stack.toNat < (stackedWithout 0xFC00 0xFC01).sp.toNat
      ∧ mapped (stackedWithout 0xFC00 0xFC01).params ((stackedWithout 0xFC00 0xFC01).sp - 1) = false := by decide

theorem witness_PopsUndoPushesInReverse :
    (stacked 0xFEFE).status = .running ∧ (stacked 0xFEFE).agenda = []
      ∧ Memory.wf (stacked 0xFEFE).params.memReset (stacked 0xFEFE).mem
      ∧ (stacked 0xFEFE).params.stack.toNat ≤ (stacked 0xFEFE).sp.toNat
      ∧ (stacked 0xFEFE).sp.toNat + ([1, 2] : List Byte).length ≤ (stacked 0xFEFE).params.stackEnd.toNat
      ∧ ∀ n, n < ([1, 2] : List Byte).length →
          mapped (stacked 0xFEFE).params ((stacked 0xFEFE).sp + BitVec.ofNat 16 n) = true := by decide

theorem witness_HostWriteInsidePopIsLost :
    let s := { busy with agenda := [[], [.set (busy.sp - 1) 9]] }
    s.agenda = [[], [.set (s.sp - 1) 9]] ∧ Memory.wf s.params.memReset s.mem
      ∧ s.params.stack.toNat < s.sp.toNat ∧ mapped s.params (s.sp - 1) = true := by decide

theorem witness_JnzJumpsToPairOnNonzero :
    (holedAt 0 0).reg 0 ≠ 0 ∧ State.reset.reg 0 = 0 ∧ jnzImmCondition State.reset.params.jnzImmCond 1 ≠ 0
      ∧ jnzImmCondition .one 0 ≠ 0 ∧ jnzImmCondition State.reset.params.jnzImmCond 0 = 0 ∧ 8 ≤ (8 : RegField).toNat := by decide

/-- `wired` with register B at port 1 and register C at port 2, where no device is. -/
def wiredRegs : State := { wired with regs := named 0 1 2 0 0 0 0 0 }

/-- A registry with two devices at port 1, neither of them its first entry. -/
def crowded : State := { wiredRegs with devices := [⟨0, "J"⟩, device, ⟨1, "L"⟩] }

/-- Ports 1 and 2 as immediate and as register. -/
theorem witness_InWritesDeviceAnswer :
    FirstAt 1 device (hostTurn crowded).devices ∧ crowded.agenda = []
      ∧ FirstAt (crowded.reg 1) device (hostTurn crowded).devices
      ∧ (∀ d ∈ (hostTurn crowded).devices, d.port ≠ 2)
      ∧ ∀ d ∈ (hostTurn crowded).devices, d.port ≠ crowded.reg 2 :=
  ⟨⟨[⟨0, "J"⟩], [⟨1, "L"⟩], by decide⟩, rfl, ⟨[⟨0, "J"⟩], [⟨1, "L"⟩], by decide⟩, by decide⟩

/-- Ports at the ends of their range. -/
theorem witness_OutSendsRegisterToDevice :
    FirstAt 0xFF ⟨0xFF, "L"⟩ (hostTurn { wired with devices := [⟨0xFF, "L"⟩, ⟨0xFF, "M"⟩] }).devices
      ∧ wired.agenda = [] ∧ FirstAt (crowded.reg 1) device (hostTurn crowded).devices
      ∧ (∀ d ∈ (hostTurn wired).devices, d.port ≠ 0)
      ∧ ∀ d ∈ (hostTurn crowded).devices, d.port ≠ crowded.reg 2 :=
  ⟨⟨[], [⟨0xFF, "M"⟩], by decide⟩, rfl, ⟨[⟨0, "J"⟩], [⟨1, "L"⟩], by decide⟩, by decide⟩

theorem witness_RemovedDeviceIsNotPresent :
    wired.agenda = [] ∧ wired.devices = [] ++ device :: []
      ∧ ∀ e ∈ ([] ++ [] : List Device), e.port ≠ device.port := by decide

theorem witness_DefaultRegistrationsNumberPortsInOrder :
    ({ State.reset with nextPort := 255 } : State).nextPort + ["L"].length ≤ 256
      ∧ 256 ≤ ({ State.reset with nextPort := 256 } : State).nextPort := by decide

theorem witness_CmpSetsLessAndEqual : 8 ≤ (8 : RegField).toNat ∧ (7 : RegField).toNat < 8 := by decide

theorem witness_AdcWritesSumThenCarry :
    (0 : RegIndex) ≠ State.reset.params.regMap.f ∧ (0 : Nat) ≠ Flag.carry.bit ∧ 8 ≤ (8 : RegField).toNat
      ∧ (7 : RegField).toNat < 8 := by decide

theorem witness_SbbWritesDifferenceThenBorrow :
    (0 : RegIndex) ≠ State.reset.params.regMap.f ∧ (0 : Nat) ≠ Flag.borrow.bit ∧ 8 ≤ (8 : RegField).toNat
      ∧ (7 : RegField).toNat < 8 := by decide

theorem witness_BitwiseOpsWriteResult : 7 < 8 ∧ 8 ≤ (8 : RegField).toNat ∧ (7 : RegField).toNat < 8 := by decide

/-- The reset state with register A given. -/
def holdingA (v : Byte) : State := { State.reset with regs := named v 0 0 0 0 0 0 0 }

theorem witness_BankSelectsConfiguredBank :
    ((holdingA 3).reg 0).toNat < (holdingA 3).params.numBanks ∧ (3 : Byte).toNat < State.reset.params.numBanks
      ∧ (holdingA 4).params.numBanks ≤ ((holdingA 4).reg 0).toNat ∧ State.reset.params.numBanks ≤ (4 : Byte).toNat
      ∧ 8 ≤ (8 : RegField).toNat := by decide

/-- The last address of the window and the first above it. -/
theorem witness_StoreUnderOneBankIsUnseenUnderAnother :
    State.reset.agenda = [] ∧ Memory.wf State.reset.params.memReset State.reset.mem ∧ (3 : Byte) ≠ 0
      ∧ (3 : Byte).toNat < State.reset.params.numBanks ∧ (0 : Byte).toNat < State.reset.params.numBanks
      ∧ mapped State.reset.params 0xBFFF = true ∧ inWindow State.reset.params 0xBFFF = true
      ∧ mapped State.reset.params 0xC000 = true ∧ inWindow State.reset.params 0xC000 = false := by decide

theorem witness_MemReadGivesRoutedByte :
    holed.agenda = [] ∧ mapped holed.params 0x9000 = false ∧ mapped holed.params 0x8FFF = true := by decide

/-- V67: a store into the bytes after its own; one of each kind that stores completes, and a host write. -/
theorem witness_StoreIsSeenByNextFetch :
    (State.reset.agenda = [] ∧ Memory.wf State.reset.params.memReset State.reset.mem
      ∧ busy.agenda = [] ∧ Memory.wf busy.params.memReset busy.mem)
      ∧ (storeAddress (.swAbs 0 4) State.reset = some 4
        ∧ ∃ t, exec (.swAbs 0 4) State.reset = .next t ∧ t.pc = 0 + 4 ∧ mapped t.params t.pc = true
          ∧ mapped t.params (t.pc + 1) = true ∧ mapped t.params (t.pc + 2) = true ∧ mapped t.params (t.pc + 3) = true)
      ∧ (∃ t, exec (.swPair 7) State.reset = .next t ∧ t.pc = 0 + 2)
      ∧ (∃ t, exec (.pushReg 7) State.reset = .next t ∧ t.pc = 0 + 2)
      ∧ (∃ t, exec (.pushImm 1) State.reset = .next t ∧ t.pc = 0 + 2)
      ∧ (∃ t, exec (.popReg 7) busy = .next t ∧ t.pc = 0 + 2)
      ∧ mapped State.reset.params 0xFFFF = true :=
  ⟨by decide, ⟨rfl, _, rfl, by decide⟩, ⟨_, rfl, rfl⟩, ⟨_, rfl, rfl⟩, ⟨_, rfl, rfl⟩, ⟨_, rfl, rfl⟩, by decide⟩

theorem witness_HostWriteInsideFetchTearsWindow :
    let s := { State.reset with agenda := [[], [.set 0 0x02, .set (0 + 1) 0x03]] }
    s.agenda = [[], [.set s.pc 0x02, .set (s.pc + 1) 0x03]] ∧ Memory.wf s.params.memReset s.mem
      ∧ mapped s.params s.pc = true ∧ mapped s.params (s.pc + 1) = true ∧ mapped s.params (s.pc + 2) = true
      ∧ mapped s.params (s.pc + 3) = true := by decide

theorem witness_DecodeOfEncodeIsIdentity : defaultOpMap.complete = true := by decide

theorem witness_EncodeOfDecodeGivesBytesBack :
    defaultOpMap.complete = true ∧ decodeWith defaultOpMap ⟨0x02, 0xF0, 0x07, 0xEE⟩ = .form (.movImm 0 0x07) := by decide

theorem witness_DecodeIsTotalByOperationAndMode :
    15 ≤ (opField 0x3C).toNat ∧ (opField 0x3B).toNat < 15
      ∧ supportsMode defaultOpMap[14] (modeField 0x3B) = false ∧ supportsMode defaultOpMap[14] (modeField 0x39) = true
      ∧ modeField 0x38 = .r1i0 ∧ modeField 0x39 = .r0i1 ∧ modeField 0x0E = .r1i1 ∧ modeField 0x37 = .r2i0 := by decide

theorem witness_IgnoredBitsDoNotChangeDecoding :
    let w : Window := ⟨0x08, 0x15, 1, 1⟩
    let v : Window := ⟨0x08, 0xF5, 2, 2⟩
    let x : Window := ⟨0x0A, 0x15, 1, 1⟩
    let y : Window := ⟨0x0A, 0xF5, 1, 1⟩
    (w.b0 = v.b0 ∧ lowNibble w.b1 = lowNibble v.b1 ∧ modeField w.b0 = .r1i0)
      ∧ (x.b0 = y.b0 ∧ lowNibble x.b1 = lowNibble y.b1 ∧ modeField x.b0 = .r1i1 ∧ x.b2 = y.b2 ∧ x.b3 = y.b3)
      ∧ modeField 0x05 ≠ .r1i1 ∧ (∃ i, decode ⟨0x02, 0, 5, 1⟩ = .form i ∧ i.length ≤ 3) := by
  refine ⟨by decide, by decide, by decide, .movImm 0 5, by decide⟩

/-- The reset state with a MOV at 0 and STOP_PC after it. -/
def stopping : State :=
  { ready (named 0 0 0 0 0 0 0 0) [0x02, 0x00, 0x05] with params := { defaultParams with stopPc := some 3 } }

theorem witness_EndedRunStaysEnded :
    (∃ t, runFor 1 stopping = .stopped t ∧ t.status = .running ∧ t.params.stopPc = some t.pc)
      ∧ ∃ t, runFor 1 State.reset = .faulted ⟨.invalidAddressingMode 0 .r1i0, 0⟩ t :=
  ⟨⟨_, rfl, by decide⟩, _, rfl⟩

end Sys2Proof.Tests
end

section
/-! Boot (10_state.md R39; 70_reset_and_hazards.md R262): neither writing the image nor a host operation reaches what
belongs to the core alone, so the created core still has the `sp` that reset gave it. -/

namespace Sys2Proof.Machine

/-- One stored byte leaves the core's own state alone. -/
theorem State.poke_sameCore (s : State) (a : Addr) (v : Byte) : SameCore s (s.poke a v) :=
  ⟨rfl, rfl, rfl, rfl, rfl⟩

/-- Storing a list of bytes leaves the core's own state alone. -/
theorem State.pokeAll_sameCore (vs : List Byte) (s : State) (a : Addr) : SameCore s (s.pokeAll a vs) := by
  induction vs generalizing s a with
  | nil => exact SameCore.refl s
  | cons v rest ih => exact (s.poke_sameCore a v).trans (ih (s.poke a v) (a + 1))

/-- Boot leaves the core's own state as reset set it: registers, `pc`, `sp`, status and parameters. -/
theorem boot_sameCore (p : Params) (image : List Byte) (registrations : List HostOp) :
    SameCore (State.resetWith p) (boot p image registrations) :=
  (State.pokeAll_sameCore image (State.resetWith p) p.pcReset).trans (applyHosts_sameCore registrations _)

@[simp] theorem State.resetWith_sp (p : Params) : (State.resetWith p).sp = p.stack := rfl

/-- Settles O2: boot keeps the core's own state, and reset sets `sp` to STACK. -/
theorem createdCoreHasSpAtStack : Obligations.CreatedCoreHasSpAtStack := by
  intro p image registrations
  calc (boot p image registrations).sp
      = (State.resetWith p).sp := (boot_sameCore p image registrations).sp
    _ = p.stack := State.resetWith_sp p

end Sys2Proof.Machine
end

section
/-! The decoder, said once (30_encoding.md R81 to R96): what byte 0 selects, which operation and mode have a form, and
where each format puts the operands. -/

namespace Sys2Proof.Machine

/-- `op` is byte 0 without its two mode bits (30_encoding.md R81). -/
theorem opField_toNat (b0 : Byte) : (opField b0).toNat = b0.toNat / 4 := by
  have hshift : b0.toNat >>> 2 = b0.toNat / 4 := Nat.shiftRight_eq_div_pow _ 2
  have hbound : b0.toNat < 256 := b0.isLt
  rw [opField, BitVec.extractLsb'_toNat, hshift]
  omega

/-- The bytes 0 whose operation code is above 14 are 0x3C to 0xFF (30_encoding.md R83). -/
theorem le_b0_iff_le_opField (b0 : Byte) : 0x3C ≤ b0.toNat ↔ 15 ≤ (opField b0).toNat := by
  rw [opField_toNat]
  omega

@[simp] theorem lowByte_joinBytes (hi lo : Byte) : lowByte (joinBytes hi lo) = lo :=
  BitVec.extractLsb'_append_eq_right

@[simp] theorem highByte_joinBytes (hi lo : Byte) : highByte (joinBytes hi lo) = hi :=
  BitVec.extractLsb'_append_eq_left

/-- An operation has a form in exactly the modes it supports (30_encoding.md R93). -/
theorem formOf_isSome (o : Operation) (m : AddressingMode) (w : Window) :
    (formOf o m w).isSome = supportsMode o m := by
  cases o <;> cases m <;> rfl

/-- The form that an operation has in a mode is of that operation and that mode (30_encoding.md R93). -/
theorem formOf_operation_mode {o : Operation} {m : AddressingMode} {w : Window} {i : Instr}
    (h : formOf o m w = some i) : i.operation = o ∧ i.mode = m := by
  cases o <;> cases m <;> cases h <;> exact ⟨rfl, rfl⟩

/-! Where each format puts its operands: one lemma per mode, by cases over the operations that have a form in it. -/

section
variable {o : Operation} {w : Window} {i : Instr}

/-- Format R1I0 (30_encoding.md R85). -/
theorem formOf_r1i0 (h : formOf o .r1i0 w = some i) : i.regFields = [lowNibble w.b1] := by
  cases o <;> cases h <;> rfl

/-- Format R0I1 (30_encoding.md R86). -/
theorem formOf_r0i1 (h : formOf o .r0i1 w = some i) : encodeOperands i = [w.b1] ∧ i.regFields = [] := by
  cases o <;> cases h <;> exact ⟨rfl, rfl⟩

/-- Format R1I1, with an immediate byte (30_encoding.md R87) or, for LW and SW, an address (R88). -/
theorem formOf_r1i1 (h : formOf o .r1i1 w = some i) :
    i.regFields = [lowNibble w.b1]
      ∧ (encodeOperands i).tail = if i.operation = .lw ∨ i.operation = .sw then [w.b2, w.b3] else [w.b2] := by
  cases o <;> cases h <;> simp [Instr.regFields, encodeOperands, Instr.operation]

/-- Format R2I0 (30_encoding.md R89). -/
theorem formOf_r2i0 (h : formOf o .r2i0 w = some i) : i.regFields = [lowNibble w.b1, highNibble w.b1] := by
  cases o <;> cases h <;> rfl

end

/-! The three answers of the decoder (30_encoding.md R96). -/

section
variable {m : OpMap} {w : Window}

/-- An operation code above 14 (30_encoding.md R83). -/
theorem decodeWith_of_le (h : 15 ≤ (opField w.b0).toNat) :
    decodeWith m w = .error (.invalidOperation (opField w.b0)) :=
  dif_neg (Nat.not_lt.mpr h)

/-- A mode the operation has no form in (30_encoding.md R94). -/
theorem decodeWith_of_none (h : (opField w.b0).toNat < 15)
    (hf : formOf m[(opField w.b0).toNat] (modeField w.b0) w = none) :
    decodeWith m w = .error (.invalidAddressingMode (opField w.b0) (modeField w.b0)) := by
  simp [decodeWith, h, hf]

/-- A mode the operation has a form in (30_encoding.md R96). -/
theorem decodeWith_of_some {i : Instr} (h : (opField w.b0).toNat < 15)
    (hf : formOf m[(opField w.b0).toNat] (modeField w.b0) w = some i) : decodeWith m w = .form i := by
  simp [decodeWith, h, hf]

end

/-- Settles O43: `formOf` answers exactly where the mode is supported, and each format's lemma says where its operands
stand. -/
theorem decodeIsTotalByOperationAndMode : Obligations.DecodeIsTotalByOperationAndMode := by
  intro m w
  refine ⟨decodeWith_of_le, le_b0_iff_le_opField w.b0, fun hop => ?_⟩
  rw [← formOf_isSome _ _ w]
  constructor
  · intro hnone
    exact decodeWith_of_none hop (Option.isNone_iff_eq_none.mp (Option.isSome_eq_false_iff.mp hnone))
  · intro hsome
    obtain ⟨i, hf⟩ := Option.isSome_iff_exists.mp hsome
    obtain ⟨hoperation, hmode⟩ := formOf_operation_mode hf
    exact ⟨i, decodeWith_of_some hop hf, hoperation, hmode,
      fun hr1i0 => formOf_r1i0 (hr1i0 ▸ hf), fun hr0i1 => formOf_r0i1 (hr0i1 ▸ hf),
      fun hr1i1 => formOf_r1i1 (hr1i1 ▸ hf), fun hr2i0 => formOf_r2i0 (hr2i0 ▸ hf)⟩

end Sys2Proof.Machine
end

section
/-! MOV R1I1 (41_mov.md R130). The rules it rests on are those of every form with one register field: the field of a
register passes the register check, a field above 7 does not, and an instruction that ends by writing one register
changes that register and `pc` alone. -/

namespace Sys2Proof.Machine

@[simp] theorem fieldOf_toNat (i : RegIndex) : (fieldOf i).toNat = i :=
  Nat.mod_eq_of_lt (i.isLt.trans (by decide))

@[simp] theorem regIndex_fieldOf (i : RegIndex) : regIndex (fieldOf i) = some i := by
  simp [regIndex]

@[simp] theorem withReg_fieldOf (i : RegIndex) (s : State) (k : RegIndex → Access Nat) :
    withReg (fieldOf i) s k = k i := by
  simp [withReg]

/-- An instruction whose meaning is a register check and then a handler raises on a bad field, whatever the handler
does (40_cycle.md R112). -/
theorem raisesOnBadField_of_withReg {f : RegField → Instr} {handler : State → RegIndex → Access Nat}
    (hexec : ∀ r s, exec (f r) s = retire (withReg r s (handler s))) : RaisesOnBadField f := by
  intro r s hr
  rw [hexec, withReg_invalid hr, retire_raised]

/-- Register `i` written and `pc` moved on, over a state `h` that differs from `s` by host turns at most. -/
theorem registerResult_setReg_setPc {s h : State} (hcore : SameCore s h) (i : RegIndex) (v : Byte) (len : Addr) :
    RegisterResult s h ((h.setReg i v).setPc (h.pc + len)) i v len := by
  have hself : ((h.setReg i v).setPc (h.pc + len)).reg i = v := by simp
  have hothers : SameRegsBut i s ((h.setReg i v).setPc (h.pc + len)) := by
    intro j hj
    rw [State.setPc_reg, State.setReg_reg_of_ne h v hj, hcore.reg]
  have hmemory : SameMemory h ((h.setReg i v).setPc (h.pc + len)) := fun k a => by simp
  have hcontrol : SameControl h ((h.setReg i v).setPc (h.pc + len)) := by simp [SameControl]
  exact ⟨hself, hothers, congrArg (· + len) hcore.pc, hcore.sp, rfl, hmemory, hcontrol⟩

/-- The end of an instruction whose handler wrote register `i` and returned its length. -/
theorem retire_setReg_registerResult {s h : State} (hcore : SameCore s h) (i : RegIndex) (v : Byte) {len : Nat}
    (hlen : len ≠ 0) :
    NextIs (retire (.done len (h.setReg i v))) fun t => RegisterResult s h t i v (BitVec.ofNat 16 len) := by
  rw [retire_done, if_neg hlen]
  exact ⟨_, rfl, registerResult_setReg_setPc hcore i v _⟩

/-- The default decoder, by what byte 0 selects: its operation and its mode (30_encoding.md R81, R82, R84). -/
theorem decode_of_formOf {o : Operation} {m : AddressingMode} {i : Instr} {w : Window}
    (hop : ∃ h : (opField w.b0).toNat < 15, defaultOpMap[(opField w.b0).toNat] = o) (hmode : modeField w.b0 = m)
    (hform : formOf o m w = some i) : decode w = .form i := by
  obtain ⟨hlt, rfl⟩ := hop
  subst hmode
  exact decodeWith_of_some hlt hform

/-- The high nibble of byte 1 and byte 3 are not read. -/
theorem decode_movImm (b1 b2 b3 : Byte) : decode ⟨0x02, b1, b2, b3⟩ = .form (.movImm (lowNibble b1) b2) := by
  have hop : ∃ h : (opField 0x02).toNat < 15, defaultOpMap[(opField 0x02).toNat] = .mov := by decide
  have hmode : modeField 0x02 = .r1i1 := by decide
  exact decode_of_formOf hop hmode rfl

theorem exec_movImm (rd : RegField) (imm : Byte) (s : State) :
    exec (.movImm rd imm) s = retire (withReg rd s fun i => .done 3 (s.setReg i imm)) := rfl

/-- Settles O16: its decoding, then the register check passed and the register written, then the check failed. -/
theorem movImmediateCopiesByte : Obligations.MovImmediateCopiesByte := by
  refine ⟨decode_movImm, fun s i imm => ?_, fun imm => raisesOnBadField_of_withReg fun r s => exec_movImm r imm s⟩
  rw [exec_movImm, withReg_fieldOf]
  exact retire_setReg_registerResult (SameCore.refl s) i imm (by decide)

end Sys2Proof.Machine
end

section
/-! LW and SW (42_load_store.md R140 to R143). The two modes of each differ in the address and the length alone, so each
handler's effect is said once, for any address: one atomic memory operation after the host's turn, then a register or a
byte written, or an error raised in the state after that turn. -/

namespace Sys2Proof.Machine

/-! ## The four forms: decoding and dispatch -/

/-- `decode_of_formOf` with the bytes of the window apart: what byte 0 selects is then a closed fact. -/
theorem decode_of_b0 {o : Operation} {m : AddressingMode} {i : Instr} {b0 b1 b2 b3 : Byte}
    (hop : ∃ h : (opField b0).toNat < 15, defaultOpMap[(opField b0).toNat] = o) (hmode : modeField b0 = m)
    (hform : formOf o m ⟨b0, b1, b2, b3⟩ = some i) : decode ⟨b0, b1, b2, b3⟩ = .form i :=
  decode_of_formOf hop hmode hform

/-- Bytes 2 and 3 and the high nibble of byte 1 are not read. -/
theorem decode_lwPair (b1 b2 b3 : Byte) : decode ⟨0x08, b1, b2, b3⟩ = .form (.lwPair (lowNibble b1)) :=
  decode_of_b0 (o := .lw) (m := .r1i0) (by decide) (by decide) rfl

/-- The low byte of the address comes first (30_encoding.md R88). -/
theorem decode_lwAbs (b1 b2 b3 : Byte) :
    decode ⟨0x0A, b1, b2, b3⟩ = .form (.lwAbs (lowNibble b1) (joinBytes b3 b2)) :=
  decode_of_b0 (o := .lw) (m := .r1i1) (by decide) (by decide) rfl

/-- Bytes 2 and 3 and the high nibble of byte 1 are not read. -/
theorem decode_swPair (b1 b2 b3 : Byte) : decode ⟨0x0C, b1, b2, b3⟩ = .form (.swPair (lowNibble b1)) :=
  decode_of_b0 (o := .sw) (m := .r1i0) (by decide) (by decide) rfl

/-- The low byte of the address comes first (30_encoding.md R88). -/
theorem decode_swAbs (b1 b2 b3 : Byte) :
    decode ⟨0x0E, b1, b2, b3⟩ = .form (.swAbs (lowNibble b1) (joinBytes b3 b2)) :=
  decode_of_b0 (o := .sw) (m := .r1i1) (by decide) (by decide) rfl

theorem exec_lwPair (rd : RegField) (s : State) :
    exec (.lwPair rd) s = retire (withReg rd s fun i => loadByte i s.xy 2 s) := rfl

theorem exec_lwAbs (rd : RegField) (ea : Addr) (s : State) :
    exec (.lwAbs rd ea) s = retire (withReg rd s fun i => loadByte i ea 4 s) := rfl

theorem exec_swPair (rs : RegField) (s : State) :
    exec (.swPair rs) s = retire (withReg rs s fun i => storeByte i s.xy 2 s) := rfl

theorem exec_swAbs (rs : RegField) (ea : Addr) (s : State) :
    exec (.swAbs rs ea) s = retire (withReg rs s fun i => storeByte i ea 4 s) := rfl

/-! ## The handlers -/

section
variable {s : State} {ea : Addr} (i : RegIndex) (len : Nat)

theorem loadByte_mapped (h : mapped s.params ea = true) :
    loadByte i ea len s = .done len ((hostTurn s).setReg i ((hostTurn s).peek ea)) := by
  rw [loadByte, memRead_mapped h, Access.andThen_done]

theorem loadByte_unmapped (h : mapped s.params ea = false) :
    loadByte i ea len s = .raised (.memoryAddress ea) (hostTurn s) := by
  rw [loadByte, memRead_unmapped h, Access.andThen_raised]

/-- The byte stored is the register's before the host's turn, which the turn does not change. -/
theorem storeByte_mapped (h : mapped s.params ea = true) :
    storeByte i ea len s = .done len ((hostTurn s).poke ea (s.reg i)) := by
  rw [storeByte, memWrite_mapped h, Access.andThen_done]

theorem storeByte_unmapped (h : mapped s.params ea = false) :
    storeByte i ea len s = .raised (.memoryAddress ea) (hostTurn s) := by
  rw [storeByte, memWrite_unmapped h, Access.andThen_raised]

end

/-- A byte stored at `ea` and `pc` moved on, over a state `h` that differs from `s` by host turns at most. -/
theorem storeResult_poke_setPc {s h : State} (hcore : SameCore s h) (hmem : h.MemWf) (ea : Addr) (v : Byte)
    (len : Addr) : StoreResult s h ((h.poke ea v).setPc (h.pc + len)) ea v s.sp len := by
  have hstored : StoresByte h ((h.poke ea v).setPc (h.pc + len)) ea v := fun k a => by
    rw [State.setPc_readAs, State.poke_readAs hmem]
  have hregs : SameRegs s ((h.poke ea v).setPc (h.pc + len)) := fun j => by
    rw [State.setPc_reg, State.poke_reg, hcore.reg]
  have hcontrol : SameControl h ((h.poke ea v).setPc (h.pc + len)) := by simp [SameControl]
  exact ⟨hstored, hregs, congrArg (· + len) hcore.pc, hcore.sp, rfl, hcontrol⟩

/-- The end of an instruction whose handler stored a byte and returned its length. -/
theorem retire_poke_storeResult {s h : State} (hcore : SameCore s h) (hmem : h.MemWf) (ea : Addr) (v : Byte)
    {len : Nat} (hlen : len ≠ 0) :
    NextIs (retire (.done len (h.poke ea v))) fun t => StoreResult s h t ea v s.sp (BitVec.ofNat 16 len) := by
  rw [retire_done, if_neg hlen]
  exact ⟨_, rfl, storeResult_poke_setPc hcore hmem ea v _⟩

/-! ## A load and a store at any address -/

section
variable {s : State} {ea : Addr} (i : RegIndex) {len : Nat}

theorem retire_loadByte_mapped (h : mapped s.params ea = true) (hlen : len ≠ 0) :
    NextIs (retire (loadByte i ea len s)) fun t =>
      RegisterResult s (hostTurn s) t i ((hostTurn s).readAs (hostTurn s).bank ea) (BitVec.ofNat 16 len) := by
  rw [loadByte_mapped i len h]
  exact retire_setReg_registerResult (hostTurn_sameCore s) i _ hlen

theorem retire_loadByte_unmapped (h : mapped s.params ea = false) :
    retire (loadByte i ea len s) = .next (raise (.memoryAddress ea) (hostTurn s)) := by
  rw [loadByte_unmapped i len h, retire_raised]

theorem retire_storeByte_mapped (hmem : s.MemWf) (h : mapped s.params ea = true) (hlen : len ≠ 0) :
    NextIs (retire (storeByte i ea len s)) fun t =>
      StoreResult s (hostTurn s) t ea (s.reg i) s.sp (BitVec.ofNat 16 len) := by
  rw [storeByte_mapped i len h]
  exact retire_poke_storeResult (hostTurn_sameCore s) (hostTurn_memWf hmem) ea _ hlen

theorem retire_storeByte_unmapped (h : mapped s.params ea = false) :
    retire (storeByte i ea len s) = .next (raise (.memoryAddress ea) (hostTurn s)) := by
  rw [storeByte_unmapped i len h, retire_raised]

end

/-- Settles O18: both modes are a load, at XY as it stands before the load or at the absolute address. -/
theorem loadCopiesByteToRegister : Obligations.LoadCopiesByteToRegister := by
  refine ⟨fun b1 b2 b3 => ⟨decode_lwPair b1 b2 b3, decode_lwAbs b1 b2 b3⟩, fun s i hmapped => ?pair,
    fun s i ea hmapped => ?abs, fun s i hunmapped => ?pairUnmapped, fun s i ea hunmapped => ?absUnmapped,
    raisesOnBadField_of_withReg exec_lwPair, fun ea => raisesOnBadField_of_withReg fun r s => exec_lwAbs r ea s⟩
  case pair =>
    rw [exec_lwPair, withReg_fieldOf]
    exact retire_loadByte_mapped i hmapped (by decide)
  case abs =>
    rw [exec_lwAbs, withReg_fieldOf]
    exact retire_loadByte_mapped i hmapped (by decide)
  case pairUnmapped => rw [exec_lwPair, withReg_fieldOf, retire_loadByte_unmapped i hunmapped]
  case absUnmapped => rw [exec_lwAbs, withReg_fieldOf, retire_loadByte_unmapped i hunmapped]

/-- Settles O19: both modes are a store, at XY or at the absolute address; the host's turn keeps memory canonical, so
the store writes the one byte. -/
theorem storeCopiesRegisterToByte : Obligations.StoreCopiesRegisterToByte := by
  refine ⟨fun b1 b2 b3 => ⟨decode_swPair b1 b2 b3, decode_swAbs b1 b2 b3⟩, fun s i hmem hmapped => ?pair,
    fun s i ea hmem hmapped => ?abs, fun s i hunmapped => ?pairUnmapped, fun s i ea hunmapped => ?absUnmapped,
    raisesOnBadField_of_withReg exec_swPair, fun ea => raisesOnBadField_of_withReg fun r s => exec_swAbs r ea s⟩
  case pair =>
    rw [exec_swPair, withReg_fieldOf]
    exact retire_storeByte_mapped i hmem hmapped (by decide)
  case abs =>
    rw [exec_swAbs, withReg_fieldOf]
    exact retire_storeByte_mapped i hmem hmapped (by decide)
  case pairUnmapped => rw [exec_swPair, withReg_fieldOf, retire_storeByte_unmapped i hunmapped]
  case absUnmapped => rw [exec_swAbs, withReg_fieldOf, retire_storeByte_unmapped i hunmapped]

end Sys2Proof.Machine
end

section
/-! The flags of F (10_state.md R26 to R28): what writing one flag does to each bit of F. -/

namespace Sys2Proof.Machine

theorem Flag.bit_inj {g g' : Flag} : g.bit = g'.bit ↔ g = g' := by
  cases g <;> cases g' <;> decide

theorem Flag.bit_lt (g : Flag) : g.bit < 8 := by
  cases g <;> decide

/-- A flag write sets its own bit and keeps every other (10_state.md R28). -/
theorem withFlag_getLsbD (g : Flag) (v : Bool) (f : Byte) (n : Nat) :
    (withFlag g v f).getLsbD n = if n = g.bit then v else f.getLsbD n := by
  rcases eq_or_ne n g.bit with rfl | hne
  · cases v <;> simp [withFlag, g.bit_lt]
  · have hmask : (BitVec.twoPow 8 g.bit).getLsbD n = false := by simp [BitVec.getLsbD_twoPow, hne.symm]
    cases v
    · have hbound : f.getLsbD n = true → n < 8 := BitVec.lt_of_getLsbD
      simpa [withFlag, hmask, hne] using hbound
    · simp [withFlag, hmask, hne]

/-- `withFlag_getLsbD` on the state. -/
theorem State.setFlag_flagReg_getLsbD (s : State) (g : Flag) (v : Bool) (n : Nat) :
    (s.setFlag g v).flagReg.getLsbD n = if n = g.bit then v else s.flagReg.getLsbD n := by
  rw [State.setFlag_flagReg, withFlag_getLsbD]

/-- A flag write sets that flag and keeps the other three. -/
theorem State.setFlag_flag (s : State) (g g' : Flag) (v : Bool) :
    (s.setFlag g v).flag g' = if g' = g then v else s.flag g' := by
  simp only [State.flag, flagOf, State.setFlag_flagReg_getLsbD, Flag.bit_inj]

/-- A flag write keeps every register but F. -/
theorem State.setFlag_reg_of_ne (s : State) (g : Flag) (v : Bool) {j : RegIndex} (h : j ≠ s.params.regMap.f) :
    (s.setFlag g v).reg j = s.reg j := by
  rw [State.setFlag_reg, if_neg h]

end Sys2Proof.Machine
end

section
/-! The two operand forms of the ALU (46_alu.md R201): the operands a valid field gives, and the error of a field above
7, whatever the operation does with them. -/

namespace Sys2Proof.Machine

@[simp] theorem operandsImm_fieldOf (i : RegIndex) (imm : Byte) (s : State)
    (k : RegIndex → Byte → Byte → Access Nat) : operandsImm (fieldOf i) imm s k = k i (s.reg i) imm := by
  simp [operandsImm]

@[simp] theorem operandsReg_fieldOf (i j : RegIndex) (s : State) (k : RegIndex → Byte → Byte → Access Nat) :
    operandsReg (fieldOf i) (fieldOf j) s k = k i (s.reg i) (s.reg j) := by
  simp [operandsReg, withRegs]

theorem raisesOnBadField_of_operandsImm {f : RegField → Instr} {imm : Byte}
    {handler : State → RegIndex → Byte → Byte → Access Nat}
    (hexec : ∀ r s, exec (f r) s = retire (operandsImm r imm s (handler s))) : RaisesOnBadField f :=
  raisesOnBadField_of_withReg (handler := fun s i => handler s i (s.reg i) imm) hexec

/-- The primary field is checked first (40_cycle.md R112). -/
theorem raisesOnBadFields_of_withRegs {f : RegField → RegField → Instr}
    {handler : State → RegIndex → RegIndex → Access Nat}
    (hexec : ∀ p q s, exec (f p q) s = retire (withRegs p q s (handler s))) : RaisesOnBadFields f := by
  intro p q s
  rw [hexec, withRegs]
  constructor
  · intro hp
    rw [withReg_invalid hp, retire_raised]
  · intro hp hq
    rw [withReg_valid hp, withReg_invalid hq, retire_raised]

theorem raisesOnBadFields_of_operandsReg {f : RegField → RegField → Instr}
    {handler : State → RegIndex → Byte → Byte → Access Nat}
    (hexec : ∀ p q s, exec (f p q) s = retire (operandsReg p q s (handler s))) : RaisesOnBadFields f :=
  raisesOnBadFields_of_withRegs (handler := fun s i j => handler s i (s.reg i) (s.reg j)) hexec

end Sys2Proof.Machine
end

section
/-! CMP (46_alu.md R190, R195): the 16-bit difference of two bytes cannot overflow, so its sign is their order; the two
forms write LESS and EQUAL of F and move `pc`. -/

namespace Sys2Proof.Machine

/-- Zero-extended bytes lie within 0 to 255, so their signed 16-bit difference is their difference as numbers. -/
theorem toInt_setWidth_sub (a b : Byte) : (a.setWidth 16 - b.setWidth 16).toInt = (a.toNat : Int) - b.toNat := by
  have ha : a.toNat < 256 := a.isLt
  have hb : b.toNat < 256 := b.isLt
  simp only [BitVec.toInt_eq_toNat_cond, BitVec.toNat_sub, BitVec.toNat_setWidth]
  omega

theorem aluCmp_eq (a b : Byte) : aluCmp a b = (decide (a.toNat < b.toNat), decide (a = b)) := by
  have hless : (a.toNat : Int) - b.toNat < 0 ↔ a.toNat < b.toNat := by omega
  have hequal : (a.toNat : Int) - b.toNat = 0 ↔ a = b := by
    rw [← BitVec.toNat_inj]
    omega
  simp only [aluCmp, toInt_setWidth_sub, hless, hequal]

theorem compareFlags_flag_less (a b : Byte) (s : State) : (compareFlags a b s).flag .less = (aluCmp a b).1 := by
  simp [compareFlags, State.setFlag_flag]

theorem compareFlags_flag_equal (a b : Byte) (s : State) : (compareFlags a b s).flag .equal = (aluCmp a b).2 := by
  simp [compareFlags, State.setFlag_flag]

/-- The six bits of F above LESS and EQUAL are kept. -/
theorem compareFlags_flagReg_getLsbD (a b : Byte) (s : State) {n : Nat} (hn : 2 ≤ n) :
    (compareFlags a b s).flagReg.getLsbD n = s.flagReg.getLsbD n := by
  have hless : n ≠ Flag.less.bit := by simp only [Flag.bit]; omega
  have hequal : n ≠ Flag.equal.bit := by simp only [Flag.bit]; omega
  rw [compareFlags, State.setFlag_flagReg_getLsbD, if_neg hequal, State.setFlag_flagReg_getLsbD, if_neg hless]

theorem compareFlags_sameRegsBut (a b : Byte) (s : State) :
    SameRegsBut s.params.regMap.f s (compareFlags a b s) := by
  intro j hj
  calc (compareFlags a b s).reg j
      = (s.setFlag .less (aluCmp a b).1).reg j := State.setFlag_reg_of_ne _ _ _ hj
    _ = s.reg j := State.setFlag_reg_of_ne _ _ _ hj

/-- The end of an instruction whose handler compared two bytes and returned its length. -/
theorem retire_compareFlags_compareResult (a b : Byte) (s : State) {len : Nat} (hlen : len ≠ 0) :
    NextIs (retire (.done len (compareFlags a b s))) fun t =>
      CompareResult s t (decide (a.toNat < b.toNat)) (decide (a = b)) (BitVec.ofNat 16 len) := by
  rw [retire_done, if_neg hlen]
  have hless := compareFlags_flag_less a b s
  have hequal := compareFlags_flag_equal a b s
  rw [aluCmp_eq] at hless hequal
  exact ⟨_, rfl, hless, hequal, fun n hn => compareFlags_flagReg_getLsbD a b s hn, compareFlags_sameRegsBut a b s,
    rfl, rfl, rfl, fun _ _ => rfl, rfl, rfl, rfl, rfl, rfl, rfl⟩

theorem exec_cmpImm (ra : RegField) (imm : Byte) (s : State) :
    exec (.cmpImm ra imm) s = retire (operandsImm ra imm s fun _ a b => .done 3 (compareFlags a b s)) := rfl

theorem exec_cmpReg (ra rb : RegField) (s : State) :
    exec (.cmpReg ra rb) s = retire (operandsReg ra rb s fun _ a b => .done 2 (compareFlags a b s)) := rfl

theorem decode_cmpImm (b1 b2 b3 : Byte) : decode ⟨0x2A, b1, b2, b3⟩ = .form (.cmpImm (lowNibble b1) b2) :=
  decode_of_b0 (o := .cmp) (m := .r1i1) (by decide) (by decide) rfl

theorem decode_cmpReg (b1 b2 b3 : Byte) :
    decode ⟨0x2B, b1, b2, b3⟩ = .form (.cmpReg (lowNibble b1) (highNibble b1)) :=
  decode_of_b0 (o := .cmp) (m := .r2i0) (by decide) (by decide) rfl

/-- Settles O30: both forms compare their two operands by `aluCmp`, which is the order of the bytes. -/
theorem cmpSetsLessAndEqual : Obligations.CmpSetsLessAndEqual := by
  refine ⟨fun b1 b2 b3 => ⟨decode_cmpImm b1 b2 b3, decode_cmpReg b1 b2 b3⟩, aluCmp_eq, fun s i imm => ?imm,
    fun s i j => ?reg, fun imm => raisesOnBadField_of_operandsImm fun r s => exec_cmpImm r imm s,
    raisesOnBadFields_of_operandsReg exec_cmpReg⟩
  case imm =>
    rw [exec_cmpImm, operandsImm_fieldOf]
    exact retire_compareFlags_compareResult _ _ s (by decide)
  case reg =>
    rw [exec_cmpReg, operandsReg_fieldOf]
    exact retire_compareFlags_compareResult _ _ s (by decide)

end Sys2Proof.Machine
end

section
/-! AND, OR and NOR (46_alu.md R193, R198 to R200). The three differ in the function of two bytes alone, so a form's
effect and its errors are said once, for any such function. -/

namespace Sys2Proof.Machine

/-- The handler of an R1I1 form that writes a function of its operands to its register. -/
def writeOpImm (op : Byte → Byte → Byte) (ra : RegField) (imm : Byte) (s : State) : Access Nat :=
  operandsImm ra imm s fun i a b => .done 3 (s.setReg i (op a b))

/-- The handler of an R2I0 form that writes a function of its operands to its first register. -/
def writeOpReg (op : Byte → Byte → Byte) (ra rb : RegField) (s : State) : Access Nat :=
  operandsReg ra rb s fun i a b => .done 2 (s.setReg i (op a b))

theorem exec_andImm (ra : RegField) (imm : Byte) (s : State) :
    exec (.andImm ra imm) s = retire (writeOpImm aluAnd ra imm s) := rfl

theorem exec_andReg (ra rb : RegField) (s : State) :
    exec (.andReg ra rb) s = retire (writeOpReg aluAnd ra rb s) := rfl

theorem exec_orImm (ra : RegField) (imm : Byte) (s : State) :
    exec (.orImm ra imm) s = retire (writeOpImm aluOr ra imm s) := rfl

theorem exec_orReg (ra rb : RegField) (s : State) :
    exec (.orReg ra rb) s = retire (writeOpReg aluOr ra rb s) := rfl

theorem exec_norImm (ra : RegField) (imm : Byte) (s : State) :
    exec (.norImm ra imm) s = retire (writeOpImm aluNor ra imm s) := rfl

theorem exec_norReg (ra rb : RegField) (s : State) :
    exec (.norReg ra rb) s = retire (writeOpReg aluNor ra rb s) := rfl

section
variable {op : Byte → Byte → Byte}

/-- An R1I1 form with such a handler writes the result and nothing else but `pc`. -/
theorem writeOpImm_registerResult {f : RegField → Byte → Instr}
    (hexec : ∀ r imm s, exec (f r imm) s = retire (writeOpImm op r imm s)) (s : State) (i : RegIndex) (imm : Byte) :
    NextIs (exec (f (fieldOf i) imm) s) fun t => RegisterResult s s t i (op (s.reg i) imm) 3 := by
  rw [hexec, writeOpImm, operandsImm_fieldOf]
  exact retire_setReg_registerResult (SameCore.refl s) i _ (by decide)

/-- An R2I0 form with such a handler writes the result and nothing else but `pc`. -/
theorem writeOpReg_registerResult {f : RegField → RegField → Instr}
    (hexec : ∀ p q s, exec (f p q) s = retire (writeOpReg op p q s)) (s : State) (i j : RegIndex) :
    NextIs (exec (f (fieldOf i) (fieldOf j)) s) fun t => RegisterResult s s t i (op (s.reg i) (s.reg j)) 2 := by
  rw [hexec, writeOpReg, operandsReg_fieldOf]
  exact retire_setReg_registerResult (SameCore.refl s) i _ (by decide)

theorem writeOpImm_raisesOnBadField {f : RegField → Byte → Instr}
    (hexec : ∀ r imm s, exec (f r imm) s = retire (writeOpImm op r imm s)) (imm : Byte) :
    RaisesOnBadField fun r => f r imm :=
  raisesOnBadField_of_operandsImm fun r s => hexec r imm s

theorem writeOpReg_raisesOnBadFields {f : RegField → RegField → Instr}
    (hexec : ∀ p q s, exec (f p q) s = retire (writeOpReg op p q s)) : RaisesOnBadFields f :=
  raisesOnBadFields_of_operandsReg hexec

end

/-! The three functions, bit by bit (46_alu.md R193). -/

theorem aluAnd_getLsbD (a b : Byte) (n : Nat) : (aluAnd a b).getLsbD n = (a.getLsbD n && b.getLsbD n) :=
  BitVec.getLsbD_and

theorem aluOr_getLsbD (a b : Byte) (n : Nat) : (aluOr a b).getLsbD n = (a.getLsbD n || b.getLsbD n) :=
  BitVec.getLsbD_or

/-- Within the 8 bits: above them `getLsbD` is false whatever is inverted. -/
theorem aluNor_getLsbD (a b : Byte) {n : Nat} (hn : n < 8) :
    (aluNor a b).getLsbD n = !(a.getLsbD n || b.getLsbD n) := by
  rw [aluNor, BitVec.getLsbD_not, BitVec.getLsbD_or, decide_eq_true hn, Bool.true_and]

theorem decode_andImm (b1 b2 b3 : Byte) : decode ⟨0x2E, b1, b2, b3⟩ = .form (.andImm (lowNibble b1) b2) :=
  decode_of_b0 (o := .and) (m := .r1i1) (by decide) (by decide) rfl

theorem decode_andReg (b1 b2 b3 : Byte) :
    decode ⟨0x2F, b1, b2, b3⟩ = .form (.andReg (lowNibble b1) (highNibble b1)) :=
  decode_of_b0 (o := .and) (m := .r2i0) (by decide) (by decide) rfl

theorem decode_orImm (b1 b2 b3 : Byte) : decode ⟨0x32, b1, b2, b3⟩ = .form (.orImm (lowNibble b1) b2) :=
  decode_of_b0 (o := .or) (m := .r1i1) (by decide) (by decide) rfl

theorem decode_orReg (b1 b2 b3 : Byte) :
    decode ⟨0x33, b1, b2, b3⟩ = .form (.orReg (lowNibble b1) (highNibble b1)) :=
  decode_of_b0 (o := .or) (m := .r2i0) (by decide) (by decide) rfl

theorem decode_norImm (b1 b2 b3 : Byte) : decode ⟨0x36, b1, b2, b3⟩ = .form (.norImm (lowNibble b1) b2) :=
  decode_of_b0 (o := .nor) (m := .r1i1) (by decide) (by decide) rfl

theorem decode_norReg (b1 b2 b3 : Byte) :
    decode ⟨0x37, b1, b2, b3⟩ = .form (.norReg (lowNibble b1) (highNibble b1)) :=
  decode_of_b0 (o := .nor) (m := .r2i0) (by decide) (by decide) rfl

/-- Settles O35: the six forms are the two handlers at the three functions. -/
theorem bitwiseOpsWriteResult : Obligations.BitwiseOpsWriteResult := by
  refine ⟨fun b1 b2 b3 => ?decoding, fun a b n hn => ?bits, fun s i imm => ?imm, fun s i j => ?reg,
    fun imm => ?badField, ?badFields⟩
  case decoding =>
    exact ⟨decode_andImm b1 b2 b3, decode_andReg b1 b2 b3, decode_orImm b1 b2 b3, decode_orReg b1 b2 b3,
      decode_norImm b1 b2 b3, decode_norReg b1 b2 b3⟩
  case bits => exact ⟨aluAnd_getLsbD a b n, aluOr_getLsbD a b n, aluNor_getLsbD a b hn⟩
  case imm =>
    exact ⟨writeOpImm_registerResult exec_andImm s i imm, writeOpImm_registerResult exec_orImm s i imm,
      writeOpImm_registerResult exec_norImm s i imm⟩
  case reg =>
    exact ⟨writeOpReg_registerResult exec_andReg s i j, writeOpReg_registerResult exec_orReg s i j,
      writeOpReg_registerResult exec_norReg s i j⟩
  case badField =>
    exact ⟨writeOpImm_raisesOnBadField exec_andImm imm, writeOpImm_raisesOnBadField exec_orImm imm,
      writeOpImm_raisesOnBadField exec_norImm imm⟩
  case badFields =>
    exact ⟨writeOpReg_raisesOnBadFields exec_andReg, writeOpReg_raisesOnBadFields exec_orReg,
      writeOpReg_raisesOnBadFields exec_norReg⟩

end Sys2Proof.Machine
end

section
/-! The sum of ADC (46_alu.md R191). -/

namespace Sys2Proof.Machine

theorem aluAdc_fst_toNat (a b : Byte) (cin : Bool) :
    (aluAdc a b cin).1.toNat = (a.toNat + b.toNat + cin.toNat) % 256 :=
  BitVec.toNat_ofNat _ 8

theorem aluAdc_snd_eq_true_iff (a b : Byte) (cin : Bool) :
    (aluAdc a b cin).2 = true ↔ 256 ≤ a.toNat + b.toNat + cin.toNat :=
  decide_eq_true_iff

/-- Settles O31: the result is the byte of the sum, the carry the test that the sum has left the byte. -/
theorem addWithCarryIsExact : Obligations.AddWithCarryIsExact :=
  fun a b cin => ⟨aluAdc_fst_toNat a b cin, aluAdc_snd_eq_true_iff a b cin⟩

end Sys2Proof.Machine
end

section
/-! What the host can have done within an instruction: any number of turns, and calls of device hooks between them
(20_memory.md R66; 45_io.md R178). The states it can leave are said once, with what they have in common with the state
before. -/

namespace Sys2Proof.Machine

/-- State `h` is state `s` after turns of the host and calls of device hooks, and nothing else. -/
inductive HostActs (s : State) : State → Prop where
  | none : HostActs s s
  | turn {h : State} : HostActs s h → HostActs s (hostTurn h)
  | hook {h : State} (c : BusCall) : HostActs s h → HostActs s (h.logCall c)

theorem HostActs.afterHook (s : State) (c : BusCall) : HostActs s (afterHook c s) := ((none.turn).hook c).turn

theorem HostActs.sameCore {s h : State} (acts : HostActs s h) : SameCore s h := by
  induction acts with
  | none => exact SameCore.refl s
  | turn _ ih => exact ih.trans (hostTurn_sameCore _)
  | hook c _ ih => exact ih.trans ⟨rfl, rfl, rfl, rfl, rfl⟩

theorem HostActs.hostInv {s h : State} (acts : HostActs s h) (hinv : HostInv s) : HostInv h := by
  induction acts with
  | none => exact hinv
  | turn _ ih => exact hostTurn_hostInv ih
  | hook c _ ih => exact ⟨ih.mem, ih.cells, ih.bank, ih.port⟩

/-- With no host operation pending only the log of hook calls can have grown. -/
theorem HostActs.idle {s h : State} (acts : HostActs s h) (hidle : s.agenda = []) :
    h.agenda = [] ∧ h.mem = s.mem ∧ h.bank = s.bank := by
  induction acts with
  | none => exact ⟨hidle, rfl, rfl⟩
  | turn _ ih => rwa [hostTurn_idle ih.1]
  | hook c _ ih => exact ih

/-- With no host operation pending every byte reads as before. -/
theorem HostActs.readAs_idle {s h : State} (acts : HostActs s h) (hidle : s.agenda = []) (k : Byte) (b : Addr) :
    h.readAs k b = s.readAs k b := by
  simp only [State.readAs, (acts.idle hidle).2.1, acts.sameCore.params]

theorem HostActs.iterate (s : State) (n : Nat) : HostActs s (hostTurn^[n] s) := by
  induction n with
  | zero => exact none
  | succ n ih =>
    rw [Function.iterate_succ_apply']
    exact ih.turn

theorem hostTurn_iterate_idle {s : State} (hidle : s.agenda = []) (n : Nat) : hostTurn^[n] s = s :=
  Function.iterate_fixed (hostTurn_idle hidle) n

/-- The invariant, its part that the host can reach apart from its part that it cannot. -/
theorem State.inv_iff (s : State) :
    s.Inv ↔ s.params.wf = true ∧ s.params.stack.toNat ≤ s.sp.toNat ∧ s.sp.toNat ≤ s.params.stackEnd.toNat
      ∧ HostInv s := by
  constructor
  · intro h
    exact ⟨h.1, h.2.1, h.2.2.1, h.hostInv⟩
  · rintro ⟨hwf, hlow, hhigh, hinv⟩
    exact ⟨hwf, hlow, hhigh, hinv.bank, hinv.mem, hinv.cells, hinv.port⟩

theorem HostActs.inv {s h : State} (acts : HostActs s h) (hinv : s.Inv) : h.Inv := by
  obtain ⟨hwf, hlow, hhigh, hhost⟩ := s.inv_iff.mp hinv
  rw [State.inv_iff, acts.sameCore.params, acts.sameCore.sp]
  exact ⟨hwf, hlow, hhigh, acts.hostInv hhost⟩

end Sys2Proof.Machine
end

section
/-! What `exec` can do, said once over all 29 forms (40_cycle.md R112 to R116): complete, take a jump, or raise an
error. Every statement about all instructions is then a case analysis over `Completes` and `ExecResult`. -/

namespace Sys2Proof.Machine

/-- The states in which the handler of instruction `i` can return its length, from state `s`. -/
inductive Completes (i : Instr) (s : State) : State → Prop where
  /-- OUT, and JNZ not taken -/
  | keeps {h : State} (hstore : storeAddress i s = none) (acts : HostActs s h) : Completes i s h
  /-- MOV, LW, IN, AND, OR, NOR -/
  | writesRegister {h : State} {j : RegIndex} {v : Byte} (hstore : storeAddress i s = none)
      (hdest : destination i = some (fieldOf j)) (acts : HostActs s h) : Completes i s (h.setReg j v)
  /-- ADC, SBB -/
  | writesRegisterAndFlag {j : RegIndex} {v : Byte} {g : Flag} {b : Bool} (hstore : storeAddress i s = none)
      (hdest : destination i = some (fieldOf j)) (hflags : writesFlags i.operation = true) :
      Completes i s ((s.setReg j v).setFlag g b)
  /-- CMP -/
  | writesFlags {g g' : Flag} {b b' : Bool} (hstore : storeAddress i s = none)
      (hflags : writesFlags i.operation = true) : Completes i s ((s.setFlag g b).setFlag g' b')
  /-- SW -/
  | stores {ea : Addr} {v : Byte} (haddr : storeAddress i s = some ea) (hbyte : storedByte i s = some v) :
      Completes i s ((hostTurn s).poke ea v)
  /-- PUSH -/
  | pushes {v : Byte} (hop : i.operation = .push) (hlimit : s.sp.toNat < s.params.stackEnd.toNat)
      (haddr : storeAddress i s = some s.sp) (hbyte : storedByte i s = some v) :
      Completes i s (((hostTurn s).poke s.sp v).setSp (s.sp + 1))
  /-- POP -/
  | pops {j : RegIndex} {v : Byte} (hop : i.operation = .pop) (hlimit : s.params.stack.toNat < s.sp.toNat)
      (haddr : storeAddress i s = some (s.sp - 1)) (hbyte : storedByte i s = some 0)
      (hdest : destination i = some (fieldOf j)) :
      Completes i s ((((hostTurn (hostTurn s)).poke (s.sp - 1) 0).setReg j v).setSp (s.sp - 1))
  /-- BANK -/
  | selects {k : Byte} (hop : i.operation = .bank) (hstore : storeAddress i s = none)
      (hbank : k.toNat < s.params.numBanks) : Completes i s (selectBank k s)

/-- A JNZ whose register field is valid and whose condition byte is not 0 (44_branch.md R160, R161). -/
def TakesJump (i : Instr) (s : State) : Prop :=
  (∃ r j, i = .jnzReg r ∧ regIndex r = some j ∧ s.reg j ≠ 0)
    ∨ ∃ v, i = .jnzImm v ∧ jnzImmCondition s.params.jnzImmCond v ≠ 0

/-- The states `exec i s` can answer. -/
inductive ExecResult (i : Instr) (s : State) : State → Prop where
  | completes {u : State} (h : Completes i s u) : ExecResult i s (u.setPc (s.pc + BitVec.ofNat 16 i.length))
  | jumps (h : TakesJump i s) : ExecResult i s (s.setPc s.xy)
  | raises (e : Error) (n : Nat) : ExecResult i s (raise e (hostTurn^[n] s))

/-! ## What the completing cases have in common -/

section
variable {i : Instr} {s u : State}

theorem Completes.pc (h : Completes i s u) : u.pc = s.pc := by
  cases h with
  | keeps _ acts => exact acts.sameCore.pc
  | writesRegister _ _ acts => exact acts.sameCore.pc
  | writesRegisterAndFlag => rfl
  | writesFlags => rfl
  | stores => exact hostTurn_pc s
  | pushes => exact hostTurn_pc s
  | pops => simp
  | selects => exact hostTurn_pc s

theorem Completes.status (h : Completes i s u) : u.status = s.status := by
  cases h with
  | keeps _ acts => exact acts.sameCore.status
  | writesRegister _ _ acts => exact acts.sameCore.status
  | writesRegisterAndFlag => rfl
  | writesFlags => rfl
  | stores => exact hostTurn_status s
  | pushes => exact hostTurn_status s
  | pops => simp
  | selects => exact hostTurn_status s

theorem Completes.params (h : Completes i s u) : u.params = s.params := by
  cases h with
  | keeps _ acts => exact acts.sameCore.params
  | writesRegister _ _ acts => exact acts.sameCore.params
  | writesRegisterAndFlag => rfl
  | writesFlags => rfl
  | stores => exact hostTurn_params s
  | pushes => exact hostTurn_params s
  | pops => simp
  | selects => exact hostTurn_params s

theorem TakesJump.storeAddress_eq_none (h : TakesJump i s) : storeAddress i s = none := by
  obtain ⟨r, j, rfl, -, -⟩ | ⟨v, rfl, -⟩ := h <;> rfl

end

/-! ## What each handler can do -/

/-- The handler's end `x` makes instruction `i` answer a state of `ExecResult`. -/
def HandlerResult (i : Instr) (s : State) (x : Access Nat) : Prop := ∃ t, retire x = .next t ∧ ExecResult i s t

section
variable {i : Instr} {s : State} {len : Nat}

theorem HandlerResult.done {u : State} (hlen : i.length = len) (h : Completes i s u) :
    HandlerResult i s (.done len u) := by
  have hne : len ≠ 0 := by
    have := (Laws.EncodedLength.formLength_bounds i.operation i.mode).1
    rw [Instr.length] at hlen
    omega
  refine ⟨_, rfl, ?_⟩
  rw [if_neg hne, ← hlen, h.pc]
  exact .completes h

theorem HandlerResult.raised (e : Error) (n : Nat) : HandlerResult i s (.raised e (hostTurn^[n] s)) :=
  ⟨_, rfl, .raises e n⟩

theorem regIndex_eq_some_iff {r : RegField} {j : RegIndex} : regIndex r = some j ↔ r = fieldOf j := by
  constructor
  · intro h
    exact BitVec.eq_of_toNat_eq ((regIndex_eq_some h).trans (fieldOf_toNat j).symm)
  · rintro rfl
    exact regIndex_fieldOf j

theorem HandlerResult.withReg {r : RegField} {k : RegIndex → Access Nat}
    (h : ∀ j, r = fieldOf j → HandlerResult i s (k j)) : HandlerResult i s (withReg r s k) := by
  rcases withReg_cases r s k with ⟨hr, heq⟩ | ⟨-, heq⟩
  · rw [heq]
    exact h _ (regIndex_eq_some_iff.mp (regIndex_valid hr))
  · rw [heq]
    exact .raised _ 0

theorem HandlerResult.withRegs {p q : RegField} {k : RegIndex → RegIndex → Access Nat}
    (h : ∀ j l, p = fieldOf j → q = fieldOf l → HandlerResult i s (k j l)) : HandlerResult i s (withRegs p q s k) :=
  .withReg fun j hj => .withReg fun l hl => h j l hj hl

theorem HandlerResult.loadByte {j : RegIndex} (ea : Addr) (hstore : storeAddress i s = none)
    (hdest : destination i = some (fieldOf j)) (hlen : i.length = len) : HandlerResult i s (loadByte j ea len s) := by
  cases hm : mapped s.params ea
  · rw [loadByte_unmapped j len hm]
    exact .raised _ 1
  · rw [loadByte_mapped j len hm]
    exact .done hlen (.writesRegister hstore hdest HostActs.none.turn)

theorem HandlerResult.storeByte {j : RegIndex} {ea : Addr} (haddr : storeAddress i s = some ea)
    (hbyte : storedByte i s = some (s.reg j)) (hlen : i.length = len) : HandlerResult i s (storeByte j ea len s) := by
  cases hm : mapped s.params ea
  · rw [storeByte_unmapped j len hm]
    exact .raised _ 1
  · rw [storeByte_mapped j len hm]
    exact .done hlen (.stores haddr hbyte)

theorem HandlerResult.inByte {j : RegIndex} (port : Byte) (hstore : storeAddress i s = none)
    (hdest : destination i = some (fieldOf j)) (hlen : i.length = len) : HandlerResult i s (inByte j port len s) := by
  rcases busReceive_cases port s with ⟨d, -, heq⟩ | ⟨-, heq⟩ <;> rw [Machine.inByte, heq]
  · exact .done hlen (.writesRegister hstore hdest (.afterHook s _))
  · exact .raised _ 1

theorem HandlerResult.outByte (v port : Byte) (hstore : storeAddress i s = none) (hlen : i.length = len) :
    HandlerResult i s (outByte v port len s) := by
  rcases busSend_cases port v s with ⟨d, -, heq⟩ | ⟨-, heq⟩ <;> rw [Machine.outByte, heq]
  · exact .done hlen (.keeps hstore (.afterHook s _))
  · exact .raised _ 1

theorem HandlerResult.branchOn {c : Byte} (hstore : storeAddress i s = none) (hlen : i.length = 2)
    (hjump : c ≠ 0 → TakesJump i s) : HandlerResult i s (branchOn c s) := by
  unfold Machine.branchOn
  split
  · exact .done hlen (.keeps hstore .none)
  · next hc => exact ⟨_, rfl, .jumps (hjump hc)⟩

theorem HandlerResult.switchBank {k : Byte} (hop : i.operation = .bank) (hstore : storeAddress i s = none)
    (hlen : i.length = 2) : HandlerResult i s (switchBank k s) := by
  unfold Machine.switchBank
  split
  · exact .raised _ 0
  · next hk => exact .done hlen (.selects hop hstore (Nat.lt_of_not_le hk))

end

/-! ## PUSH and POP (43_stack.md R150 to R152) -/

section
variable {s : State} (v : Byte) (j : RegIndex)

theorem pushByte_full (h : s.params.stackEnd.toNat ≤ s.sp.toNat) : pushByte v s = .raised (.stackOverflow s.sp) s :=
  if_pos h

theorem pushByte_unmapped (h : s.sp.toNat < s.params.stackEnd.toNat) (hm : mapped s.params s.sp = false) :
    pushByte v s = .raised (.memoryAddress s.sp) (hostTurn s) := by
  rw [pushByte, if_neg (Nat.not_le_of_lt h), memWrite_unmapped hm, Access.andThen_raised]

theorem pushByte_mapped (h : s.sp.toNat < s.params.stackEnd.toNat) (hm : mapped s.params s.sp = true) :
    pushByte v s = .done 2 (((hostTurn s).poke s.sp v).setSp (s.sp + 1)) := by
  rw [pushByte, if_neg (Nat.not_le_of_lt h), memWrite_mapped hm, Access.andThen_done]

theorem popByte_empty (h : s.sp.toNat ≤ s.params.stack.toNat) : popByte j s = .raised (.stackUnderflow s.sp) s :=
  if_pos h

theorem popByte_unmapped (h : s.params.stack.toNat < s.sp.toNat) (hm : mapped s.params (s.sp - 1) = false) :
    popByte j s = .raised (.memoryAddress (s.sp - 1)) (hostTurn s) := by
  rw [popByte, if_neg (Nat.not_le_of_lt h), memRead_unmapped hm, Access.andThen_raised]

/-- The byte is read after the host's first turn and the cell cleared after its second. -/
theorem popByte_mapped (h : s.params.stack.toNat < s.sp.toNat) (hm : mapped s.params (s.sp - 1) = true) :
    popByte j s = .done 2 ((((hostTurn (hostTurn s)).poke (s.sp - 1) 0).setReg j
      ((hostTurn s).peek (s.sp - 1))).setSp (s.sp - 1)) := by
  have hm' : mapped (hostTurn s).params (s.sp - 1) = true := by rwa [hostTurn_params]
  rw [popByte, if_neg (Nat.not_le_of_lt h), memRead_mapped hm, Access.andThen_done, memWrite_mapped hm',
    Access.andThen_done]

end

section
variable {i : Instr} {s : State}

theorem HandlerResult.pushByte {v : Byte} (hop : i.operation = .push) (haddr : storeAddress i s = some s.sp)
    (hbyte : storedByte i s = some v) (hlen : i.length = 2) : HandlerResult i s (pushByte v s) := by
  rcases Nat.lt_or_ge s.sp.toNat s.params.stackEnd.toNat with hlimit | hfull
  · cases hm : mapped s.params s.sp
    · rw [pushByte_unmapped v hlimit hm]
      exact .raised _ 1
    · rw [pushByte_mapped v hlimit hm]
      exact .done hlen (.pushes hop hlimit haddr hbyte)
  · rw [pushByte_full v hfull]
    exact .raised _ 0

theorem HandlerResult.popByte {j : RegIndex} (hop : i.operation = .pop) (haddr : storeAddress i s = some (s.sp - 1))
    (hbyte : storedByte i s = some 0) (hdest : destination i = some (fieldOf j)) (hlen : i.length = 2) :
    HandlerResult i s (popByte j s) := by
  rcases Nat.lt_or_ge s.params.stack.toNat s.sp.toNat with hlimit | hempty
  · cases hm : mapped s.params (s.sp - 1)
    · rw [popByte_unmapped j hlimit hm]
      exact .raised _ 1
    · rw [popByte_mapped j hlimit hm]
      exact .done hlen (.pops hop hlimit haddr hbyte hdest)
  · rw [popByte_empty j hempty]
    exact .raised _ 0

end

/-! ## The dispatch of the forms that have no equation above -/

theorem exec_movReg (rd rs : RegField) (s : State) :
    exec (.movReg rd rs) s = retire (withRegs rd rs s fun i j => .done 2 (s.setReg i (s.reg j))) := rfl

theorem exec_jnzReg (rc : RegField) (s : State) :
    exec (.jnzReg rc) s = retire (withReg rc s fun i => branchOn (s.reg i) s) := rfl

theorem exec_jnzImm (imm : Byte) (s : State) :
    exec (.jnzImm imm) s = retire (branchOn (jnzImmCondition s.params.jnzImmCond imm) s) := rfl

theorem exec_pushReg (rs : RegField) (s : State) :
    exec (.pushReg rs) s = retire (withReg rs s fun i => pushByte (s.reg i) s) := rfl

theorem exec_pushImm (imm : Byte) (s : State) : exec (.pushImm imm) s = retire (pushByte imm s) := rfl

theorem exec_popReg (rd : RegField) (s : State) :
    exec (.popReg rd) s = retire (withReg rd s fun i => popByte i s) := rfl

theorem exec_inImm (rd : RegField) (port : Byte) (s : State) :
    exec (.inImm rd port) s = retire (withReg rd s fun i => inByte i port 3 s) := rfl

theorem exec_inReg (rd rp : RegField) (s : State) :
    exec (.inReg rd rp) s = retire (withRegs rd rp s fun i j => inByte i (s.reg j) 2 s) := rfl

theorem exec_outImm (rs : RegField) (port : Byte) (s : State) :
    exec (.outImm rs port) s = retire (withReg rs s fun i => outByte (s.reg i) port 3 s) := rfl

theorem exec_outReg (rs rp : RegField) (s : State) :
    exec (.outReg rs rp) s = retire (withRegs rs rp s fun i j => outByte (s.reg i) (s.reg j) 2 s) := rfl

theorem exec_adcImm (ra : RegField) (imm : Byte) (s : State) :
    exec (.adcImm ra imm) s = retire (operandsImm ra imm s fun i a b => .done 3 (addInto i a b s)) := rfl

theorem exec_adcReg (ra rb : RegField) (s : State) :
    exec (.adcReg ra rb) s = retire (operandsReg ra rb s fun i a b => .done 2 (addInto i a b s)) := rfl

theorem exec_sbbImm (ra : RegField) (imm : Byte) (s : State) :
    exec (.sbbImm ra imm) s = retire (operandsImm ra imm s fun i a b => .done 3 (subInto i a b s)) := rfl

theorem exec_sbbReg (ra rb : RegField) (s : State) :
    exec (.sbbReg ra rb) s = retire (operandsReg ra rb s fun i a b => .done 2 (subInto i a b s)) := rfl

theorem exec_bankReg (rs : RegField) (s : State) :
    exec (.bankReg rs) s = retire (withReg rs s fun i => switchBank (s.reg i) s) := rfl

theorem exec_bankImm (imm : Byte) (s : State) : exec (.bankImm imm) s = retire (switchBank imm s) := rfl

/-! ## The register forms of the ALU and MOV, then all forms -/

section
variable {i : Instr} {s : State}

theorem HandlerResult.setReg {j : RegIndex} (v : Byte) {len : Nat} (hstore : storeAddress i s = none)
    (hdest : destination i = some (fieldOf j)) (hlen : i.length = len) : HandlerResult i s (.done len (s.setReg j v)) :=
  .done hlen (.writesRegister hstore hdest .none)

/-- An R1I1 form whose handler writes a function of its operands to its register. -/
theorem HandlerResult.writeOpImm (op : Byte → Byte → Byte) {r : RegField} (imm : Byte)
    (hstore : storeAddress i s = none) (hdest : destination i = some r) (hlen : i.length = 3) :
    HandlerResult i s (writeOpImm op r imm s) :=
  .withReg fun _ hr => .setReg _ hstore (hr ▸ hdest) hlen

/-- An R2I0 form whose handler writes a function of its operands to its first register. -/
theorem HandlerResult.writeOpReg (op : Byte → Byte → Byte) {p : RegField} (q : RegField)
    (hstore : storeAddress i s = none) (hdest : destination i = some p) (hlen : i.length = 2) :
    HandlerResult i s (writeOpReg op p q s) :=
  .withRegs fun _ _ hp _ => .setReg _ hstore (hp ▸ hdest) hlen

end

/-- What `exec` can do: it always answers a next state, and that is one of `ExecResult`. -/
theorem exec_result (i : Instr) (s : State) : ∃ t, exec i s = .next t ∧ ExecResult i s t := by
  have answers : ∀ {x}, exec i s = retire x → HandlerResult i s x → ∃ t, exec i s = .next t ∧ ExecResult i s t :=
    fun hexec h => hexec ▸ h
  cases i with
  | movImm rd imm => exact answers (exec_movImm _ _ _) (.withReg fun _ h => .setReg _ rfl (h ▸ rfl) rfl)
  | movReg rd rs => exact answers (exec_movReg _ _ _) (.withRegs fun _ _ h _ => .setReg _ rfl (h ▸ rfl) rfl)
  | jnzReg rc =>
    exact answers (exec_jnzReg _ _) (.withReg fun _ h => .branchOn rfl rfl fun hc =>
      .inl ⟨_, _, rfl, regIndex_eq_some_iff.mpr h, hc⟩)
  | jnzImm imm => exact answers (exec_jnzImm _ _) (.branchOn rfl rfl fun hc => .inr ⟨_, rfl, hc⟩)
  | lwPair rd => exact answers (exec_lwPair _ _) (.withReg fun _ h => .loadByte _ rfl (h ▸ rfl) rfl)
  | lwAbs rd ea => exact answers (exec_lwAbs _ _ _) (.withReg fun _ h => .loadByte _ rfl (h ▸ rfl) rfl)
  | swPair rs => exact answers (exec_swPair _ _) (.withReg fun _ h => .storeByte rfl (by simp [storedByte, h]) rfl)
  | swAbs rs ea => exact answers (exec_swAbs _ _ _) (.withReg fun _ h => .storeByte rfl (by simp [storedByte, h]) rfl)
  | pushReg rs =>
    exact answers (exec_pushReg _ _) (.withReg fun _ h => .pushByte rfl rfl (by simp [storedByte, h]) rfl)
  | pushImm imm => exact answers (exec_pushImm _ _) (.pushByte rfl rfl rfl rfl)
  | popReg rd => exact answers (exec_popReg _ _) (.withReg fun _ h => .popByte rfl rfl rfl (h ▸ rfl) rfl)
  | inImm rd port => exact answers (exec_inImm _ _ _) (.withReg fun _ h => .inByte _ rfl (h ▸ rfl) rfl)
  | inReg rd rp => exact answers (exec_inReg _ _ _) (.withRegs fun _ _ h _ => .inByte _ rfl (h ▸ rfl) rfl)
  | outImm rs port => exact answers (exec_outImm _ _ _) (.withReg fun _ _ => .outByte _ _ rfl rfl)
  | outReg rs rp => exact answers (exec_outReg _ _ _) (.withRegs fun _ _ _ _ => .outByte _ _ rfl rfl)
  | adcImm ra imm =>
    exact answers (exec_adcImm _ _ _) (.withReg fun _ h => .done rfl (.writesRegisterAndFlag rfl (h ▸ rfl) rfl))
  | adcReg ra rb =>
    exact answers (exec_adcReg _ _ _) (.withRegs fun _ _ h _ => .done rfl (.writesRegisterAndFlag rfl (h ▸ rfl) rfl))
  | sbbImm ra imm =>
    exact answers (exec_sbbImm _ _ _) (.withReg fun _ h => .done rfl (.writesRegisterAndFlag rfl (h ▸ rfl) rfl))
  | sbbReg ra rb =>
    exact answers (exec_sbbReg _ _ _) (.withRegs fun _ _ h _ => .done rfl (.writesRegisterAndFlag rfl (h ▸ rfl) rfl))
  | cmpImm ra imm => exact answers (exec_cmpImm _ _ _) (.withReg fun _ _ => .done rfl (.writesFlags rfl rfl))
  | cmpReg ra rb => exact answers (exec_cmpReg _ _ _) (.withRegs fun _ _ _ _ => .done rfl (.writesFlags rfl rfl))
  | andImm ra imm => exact answers (exec_andImm _ _ _) (.writeOpImm aluAnd imm rfl rfl rfl)
  | andReg ra rb => exact answers (exec_andReg _ _ _) (.writeOpReg aluAnd rb rfl rfl rfl)
  | orImm ra imm => exact answers (exec_orImm _ _ _) (.writeOpImm aluOr imm rfl rfl rfl)
  | orReg ra rb => exact answers (exec_orReg _ _ _) (.writeOpReg aluOr rb rfl rfl rfl)
  | norImm ra imm => exact answers (exec_norImm _ _ _) (.writeOpImm aluNor imm rfl rfl rfl)
  | norReg ra rb => exact answers (exec_norReg _ _ _) (.writeOpReg aluNor rb rfl rfl rfl)
  | bankReg rs => exact answers (exec_bankReg _ _) (.withReg fun _ _ => .switchBank rfl rfl rfl)
  | bankImm imm => exact answers (exec_bankImm _ _) (.switchBank rfl rfl rfl)

/-- `exec_result` for an answer already at hand. -/
theorem execResult_of_exec {i : Instr} {s t : State} (h : exec i s = .next t) : ExecResult i s t := by
  obtain ⟨u, hu, hresult⟩ := exec_result i s
  rw [hu] at h
  cases h
  exact hresult

end Sys2Proof.Machine
end

section
/-! What a step can do, said once (40_cycle.md R110, R111, R117): its fetch raises, its decode raises, or it answers
what `exec` answers; each time in a state the host alone has changed. The statements over all steps follow. -/

namespace Sys2Proof.Machine

/-- A fetch reads its four bytes with one turn of the host before each, or raises after some of them. -/
theorem fetch_cases (s : State) :
    (∃ w, fetch s = .done w (hostTurn^[4] s)) ∨ ∃ e n, fetch s = .raised e (hostTurn^[n] s) := by
  unfold fetch
  rcases memRead_cases s.pc s with ⟨-, h0⟩ | ⟨-, h0⟩ <;> rw [h0]
  case inr => exact .inr ⟨_, 1, rfl⟩
  rw [Access.andThen_done]
  rcases memRead_cases (s.pc + 1) (hostTurn s) with ⟨-, h1⟩ | ⟨-, h1⟩ <;> rw [h1]
  case inr => exact .inr ⟨_, 2, rfl⟩
  rw [Access.andThen_done]
  rcases memRead_cases (s.pc + 2) (hostTurn (hostTurn s)) with ⟨-, h2⟩ | ⟨-, h2⟩ <;> rw [h2]
  case inr => exact .inr ⟨_, 3, rfl⟩
  rw [Access.andThen_done]
  rcases memRead_cases (s.pc + 3) (hostTurn (hostTurn (hostTurn s))) with ⟨-, h3⟩ | ⟨-, h3⟩ <;> rw [h3]
  case inr => exact .inr ⟨_, 4, rfl⟩
  exact .inl ⟨_, rfl⟩

section
variable {s t : State} {w : Window}

theorem step_faulted {r : FaultRecord} (h : s.status = .faulted r) : step s = .fault (.coreFaulted r) := by
  rw [step, h]

theorem step_of_fetch_raised {e : Error} (hrun : s.status = .running) (hfetch : fetch s = .raised e t) :
    step s = .next (raise e t) := by
  simp only [step, hrun, hfetch]

theorem step_of_decode_error {e : DecodeError} (hrun : s.status = .running) (hfetch : fetch s = .done w t)
    (hdecode : decodeWith s.params.opMap w = .error e) : step s = .next (raise (Error.ofDecode e) t) := by
  simp only [step, hrun, hfetch, (fetch_sameCore hfetch).params, hdecode]

theorem step_of_decode_form {i : Instr} (hrun : s.status = .running) (hfetch : fetch s = .done w t)
    (hdecode : decodeWith s.params.opMap w = .form i) : step s = exec i t := by
  simp only [step, hrun, hfetch, (fetch_sameCore hfetch).params, hdecode]

end

/-- The states `step s` can answer on a running core. -/
inductive StepResult (s : State) : State → Prop where
  | raises (e : Error) (n : Nat) : StepResult s (raise e (hostTurn^[n] s))
  | executes {i : Instr} {t : State} (h : ExecResult i (hostTurn^[4] s) t) : StepResult s t

/-- What `step` can do on a running core: it always answers a next state, and that is one of `StepResult`. -/
theorem step_result {s : State} (hrun : s.status = .running) : ∃ t, step s = .next t ∧ StepResult s t := by
  rcases fetch_cases s with ⟨w, hfetch⟩ | ⟨e, n, hfetch⟩
  · cases hdecode : decodeWith s.params.opMap w with
    | error e => exact ⟨_, step_of_decode_error hrun hfetch hdecode, .raises _ 4⟩
    | form i =>
      obtain ⟨t, hexec, hresult⟩ := exec_result i (hostTurn^[4] s)
      exact ⟨t, (step_of_decode_form hrun hfetch hdecode).trans hexec, .executes hresult⟩
  · exact ⟨_, step_of_fetch_raised hrun hfetch, .raises e n⟩

theorem running_or_faulted (s : State) : s.status = .running ∨ ∃ r, s.status = .faulted r := by
  cases s.status with
  | running => exact .inl rfl
  | faulted r => exact .inr ⟨r, rfl⟩

/-- Only a running core answers a next state, and that is one of `StepResult`. -/
theorem stepResult_of_step {s t : State} (h : step s = .next t) : s.status = .running ∧ StepResult s t := by
  rcases running_or_faulted s with hrun | ⟨r, hfault⟩
  · obtain ⟨u, hu, hresult⟩ := step_result hrun
    rw [hu] at h
    cases h
    exact ⟨hrun, hresult⟩
  · rw [step_faulted hfault] at h
    cases h

/-! ## The parameters -/

theorem ExecResult.params {i : Instr} {s t : State} (h : ExecResult i s t) : t.params = s.params := by
  cases h with
  | completes h => exact h.params
  | jumps => rfl
  | raises e n => exact (HostActs.iterate s n).sameCore.params

/-- Settles O5: no result of `exec` and no turn of the host changes a parameter. -/
theorem stepKeepsParameters : Obligations.StepKeepsParameters := by
  intro s t h
  cases (stepResult_of_step h).2 with
  | raises e n => exact (HostActs.iterate s n).sameCore.params
  | executes h => exact h.params.trans (HostActs.iterate s 4).sameCore.params

/-! ## The invariant -/

/-- Each completing case keeps the invariant: PUSH and POP move `sp` by one within the limits they have checked, BANK
selects a bank it has checked, and the rest changes nothing the invariant speaks of but by the host and by one store. -/
theorem Completes.inv {i : Instr} {s u : State} (h : Completes i s u) (hinv : s.Inv) : u.Inv := by
  obtain ⟨hwf, hlow, hhigh, hhost⟩ := s.inv_iff.mp hinv
  have hhost1 : HostInv (hostTurn s) := hostTurn_hostInv hhost
  cases h with
  | keeps _ acts => exact acts.inv hinv
  | writesRegister _ _ acts => exact acts.inv hinv
  | writesRegisterAndFlag => exact hinv
  | writesFlags => exact hinv
  | stores =>
    refine (State.inv_iff _).mpr ⟨?_, ?_, ?_, hhost1.poke _ _⟩ <;> simpa
  | @pushes v hop hlimit =>
    have hup : (s.sp + 1).toNat = s.sp.toNat + 1 :=
      BitVec.toNat_add_of_lt (by have := s.params.stackEnd.isLt; simp; omega)
    have hpoke := hhost1.poke s.sp v
    refine (State.inv_iff _).mpr ⟨?_, ?_, ?_, ⟨hpoke.mem, hpoke.cells, hpoke.bank, hpoke.port⟩⟩
    · simpa
    · rw [State.setSp_sp, hup]
      simp only [State.setSp_params, State.poke_params, hostTurn_params]
      omega
    · rw [State.setSp_sp, hup]
      simpa
  | pops hop hlimit =>
    have hdown : (s.sp - 1).toNat = s.sp.toNat - 1 := BitVec.toNat_sub_of_le (by rw [BitVec.le_def]; simp; omega)
    have hpoke := (hostTurn_hostInv hhost1).poke (s.sp - 1) 0
    refine (State.inv_iff _).mpr ⟨?_, ?_, ?_, ⟨hpoke.mem, hpoke.cells, hpoke.bank, hpoke.port⟩⟩
    · simpa
    · rw [State.setSp_sp, hdown]
      simp only [State.setSp_params, State.setReg_params, State.poke_params, hostTurn_params]
      omega
    · rw [State.setSp_sp, hdown]
      simp only [State.setSp_params, State.setReg_params, State.poke_params, hostTurn_params]
      omega
  | @selects k hop hstore hbank =>
    have hbank' : k.toNat < (hostTurn s).params.numBanks := by simpa
    refine (State.inv_iff _).mpr ⟨?_, ?_, ?_, ⟨hhost1.mem, hhost1.cells, hbank', hhost1.port⟩⟩ <;> simpa [selectBank]

theorem ExecResult.inv {i : Instr} {s t : State} (h : ExecResult i s t) (hinv : s.Inv) : t.Inv := by
  cases h with
  | completes h => exact h.inv hinv
  | jumps => exact hinv
  | raises e n => exact (HostActs.iterate s n).inv hinv

/-- Settles O4: the host's turns keep the invariant, and so does every result of `exec`. -/
theorem stepKeepsInvariant : Obligations.StepKeepsInvariant := by
  intro s t hinv h
  cases (stepResult_of_step h).2 with
  | raises e n => exact (HostActs.iterate s n).inv hinv
  | executes h => exact h.inv ((HostActs.iterate s 4).inv hinv)

/-! ## Where a core stops, and its errors -/

/-- Settles O7: a running core answers by `step_result`, a Faulted one stops with its record. -/
theorem onlyFaultedCoreStops : Obligations.OnlyFaultedCoreStops := by
  have hnext : ∀ s : State, s.status = .running → ∃ t, step s = .next t := fun s hrun =>
    (step_result hrun).imp fun _ h => h.1
  refine ⟨hnext, fun s f => ⟨fun h => ?stops, ?faulted⟩, fun s r h => ?refused⟩
  case stops =>
    rcases running_or_faulted s with hrun | ⟨r, hfault⟩
    · obtain ⟨t, ht⟩ := hnext s hrun
      cases ht.symm.trans h
    · cases (step_faulted hfault).symm.trans h
      exact ⟨r, hfault, rfl⟩
  case faulted =>
    rintro ⟨r, hfault, rfl⟩
    exact step_faulted hfault
  case refused =>
    rcases running_or_faulted s with hrun | ⟨r, hfault⟩
    · obtain ⟨t, ht⟩ := hnext s hrun
      cases ht.symm.trans h
    · cases (step_faulted hfault).symm.trans h

/-- An answer of `exec` on a running core that is Faulted is an error raised after turns of the host alone. -/
theorem ExecResult.of_faulted {i : Instr} {s t : State} {r : FaultRecord} (h : ExecResult i s t)
    (hrun : s.status = .running) (hfault : t.status = .faulted r) : ∃ e n, t = raise e (hostTurn^[n] s) := by
  cases h with
  | completes h => cases (h.status.trans hrun).symm.trans hfault
  | jumps => cases hrun.symm.trans hfault
  | raises e n => exact ⟨e, n, rfl⟩

/-- A step that leaves a running core Faulted has raised an error after turns of the host alone. -/
theorem StepResult.of_faulted {s t : State} {r : FaultRecord} (h : StepResult s t) (hrun : s.status = .running)
    (hfault : t.status = .faulted r) : ∃ e n, t = raise e (hostTurn^[n] s) := by
  cases h with
  | raises e n => exact ⟨e, n, rfl⟩
  | executes h =>
    obtain ⟨e, n, rfl⟩ := h.of_faulted ((HostActs.iterate s 4).sameCore.status.trans hrun) hfault
    exact ⟨e, n + 4, by rw [Function.iterate_add_apply]⟩

/-- Settles O8: the state before the error is `s` after turns of the host, which reach nothing of the core's own and,
with no host operation pending, nothing at all. -/
theorem errorsArePrecise : Obligations.ErrorsArePrecise := by
  intro s t r hrun h hfault
  obtain ⟨e, n, rfl⟩ := (stepResult_of_step h).2.of_faulted hrun hfault
  have hcore := (HostActs.iterate s n).sameCore
  obtain rfl : _ = r := RunStatus.faulted.inj hfault
  refine ⟨hcore.pc, hcore.pc, hcore.reg, hcore.sp, hcore.params, fun hidle => ?_⟩
  rw [hostTurn_iterate_idle hidle]
  rfl

/-! ## The order of fetch, decode and execution -/

/-- Settles O9: with the host idle each read of the fetch is in `s` itself, so the first unmapped one ends the step. -/
theorem fetchErrorsComeBeforeDecodeErrors : Obligations.FetchErrorsComeBeforeDecodeErrors := by
  intro s hrun hidle
  have hturn := hostTurn_idle hidle
  refine ⟨fun h0 => ?_, fun h0 h1 => ?_, fun h0 h1 h2 => ?_, fun h0 h1 h2 h3 => ?_, fun h0 h1 h2 h3 e hdecode => ?_⟩
  · refine step_of_fetch_raised hrun ?_
    rw [fetch, memRead_unmapped h0, hturn, Access.andThen_raised]
  · refine step_of_fetch_raised hrun ?_
    simp only [fetch, memRead_mapped h0, memRead_unmapped h1, hturn, Access.andThen_done, Access.andThen_raised]
  · refine step_of_fetch_raised hrun ?_
    simp only [fetch, memRead_mapped h0, memRead_mapped h1, memRead_unmapped h2, hturn, Access.andThen_done,
      Access.andThen_raised]
  · refine step_of_fetch_raised hrun ?_
    simp only [fetch, memRead_mapped h0, memRead_mapped h1, memRead_mapped h2, memRead_unmapped h3, hturn,
      Access.andThen_done, Access.andThen_raised]
  · exact step_of_decode_error hrun (fetch_idle hidle ⟨h0, h1, h2, h3⟩) hdecode

/-- Settles O6: the fetch changes no parameter, and with the host idle it changes nothing. -/
theorem stepRunsDecodedInstruction : Obligations.StepRunsDecodedInstruction :=
  ⟨fun _ _ _ _ hrun hfetch hdecode => step_of_decode_form hrun hfetch hdecode,
    fun _ _ hrun hidle h0 h1 h2 h3 hdecode => step_of_decode_form hrun (fetch_idle hidle ⟨h0, h1, h2, h3⟩) hdecode⟩

end Sys2Proof.Machine
end

section
/-! What instructions leave alone, over all of them: each statement is a case analysis over `ExecResult` and
`Completes`. -/

namespace Sys2Proof.Machine

/-- Settles O10: `pc` moves on where the handler completes and becomes XY where it takes a jump; an error has left the
core Faulted. -/
theorem pcMovesByLengthOrTakenJump : Obligations.PcMovesByLengthOrTakenJump := by
  intro i s t _ hexec hrunning
  cases execResult_of_exec hexec with
  | completes => exact .inl rfl
  | jumps h => exact .inr ⟨rfl, h⟩
  | raises e n => cases hrunning

/-- Settles O12: registers are written in the three cases that say so. -/
theorem registersChangeOnlyAsListed : Obligations.RegistersChangeOnlyAsListed := by
  intro i s t hexec j hj
  cases execResult_of_exec hexec with
  | completes h =>
    rw [State.setPc_reg] at hj
    cases h with
    | keeps _ acts => exact absurd (acts.sameCore.reg j) hj
    | @writesRegister h i v _ hdest acts =>
      rcases eq_or_ne j i with rfl | hne
      · exact .inl hdest
      · exact absurd ((State.setReg_reg_of_ne h v hne).trans (acts.sameCore.reg j)) hj
    | @writesRegisterAndFlag i v _ _ _ hdest hflags =>
      rcases eq_or_ne j s.params.regMap.f with hf | hf
      · exact .inr ⟨hf, hflags⟩
      rcases eq_or_ne j i with rfl | hne
      · exact .inl hdest
      · exact absurd ((State.setFlag_reg_of_ne (s.setReg i v) _ _ hf).trans (State.setReg_reg_of_ne s v hne)) hj
    | @writesFlags g _ b _ _ hflags =>
      rcases eq_or_ne j s.params.regMap.f with hf | hf
      · exact .inr ⟨hf, hflags⟩
      · exact absurd ((State.setFlag_reg_of_ne (s.setFlag g b) _ _ hf).trans (State.setFlag_reg_of_ne s g b hf)) hj
    | stores => exact absurd (hostTurn_reg s j) hj
    | pushes => exact absurd (hostTurn_reg s j) hj
    | @pops i v _ _ _ _ hdest =>
      rcases eq_or_ne j i with rfl | hne
      · exact .inl hdest
      · refine absurd ?_ hj
        rw [State.setSp_reg, State.setReg_reg_of_ne _ v hne, State.poke_reg, hostTurn_reg, hostTurn_reg]
    | selects => exact absurd (hostTurn_reg s j) hj
  | jumps => exact absurd rfl hj
  | raises e n => exact absurd ((HostActs.iterate s n).sameCore.reg j) hj

/-- Settles O13: the cases of PUSH and POP alone write `sp`. -/
theorem onlyPushAndPopMoveSp : Obligations.OnlyPushAndPopMoveSp := by
  intro i s t hexec hsp
  cases execResult_of_exec hexec with
  | completes h =>
    cases h with
    | keeps _ acts => exact absurd acts.sameCore.sp hsp
    | writesRegister _ _ acts => exact absurd acts.sameCore.sp hsp
    | writesRegisterAndFlag => exact absurd rfl hsp
    | writesFlags => exact absurd rfl hsp
    | stores => exact absurd (hostTurn_sp s) hsp
    | pushes hop => exact .inl ⟨hop, rfl⟩
    | pops hop => exact .inr ⟨hop, rfl⟩
    | selects => exact absurd (hostTurn_sp s) hsp
  | jumps => exact absurd rfl hsp
  | raises e n => exact absurd (HostActs.iterate s n).sameCore.sp hsp

/-- Settles O14: with the host idle the case of BANK alone writes the active bank, with an id it has checked. -/
theorem onlyBankInstructionSelectsBank : Obligations.OnlyBankInstructionSelectsBank := by
  intro i s t hidle hexec hbank
  have unchanged : ∀ {h}, HostActs s h → h.bank = s.bank := fun acts => (acts.idle hidle).2.2
  cases execResult_of_exec hexec with
  | completes h =>
    cases h with
    | keeps _ acts => exact absurd (unchanged acts) hbank
    | writesRegister _ _ acts => exact absurd (unchanged acts) hbank
    | writesRegisterAndFlag => exact absurd rfl hbank
    | writesFlags => exact absurd rfl hbank
    | stores => exact absurd (unchanged HostActs.none.turn) hbank
    | pushes => exact absurd (unchanged HostActs.none.turn) hbank
    | pops => exact absurd (unchanged HostActs.none.turn.turn) hbank
    | selects hop _ hk => exact ⟨hop, hk⟩
  | jumps => exact absurd rfl hbank
  | raises e n => exact absurd (unchanged (HostActs.iterate s n)) hbank

/-- With the host idle, an instruction with no store address that completes changes no byte of memory. -/
theorem Completes.sameMemory {i : Instr} {s u : State} (h : Completes i s u) (hidle : s.agenda = [])
    (hnone : storeAddress i s = none) : SameMemory s u := by
  intro k b
  cases h with
  | keeps _ acts => exact acts.readAs_idle hidle k b
  | writesRegister _ _ acts => exact acts.readAs_idle hidle k b
  | writesRegisterAndFlag => rfl
  | writesFlags => rfl
  | stores haddr => cases hnone.symm.trans haddr
  | pushes _ _ haddr => cases hnone.symm.trans haddr
  | pops _ _ haddr => cases hnone.symm.trans haddr
  | selects => exact HostActs.none.turn.readAs_idle hidle k b

/-- With the host idle, an instruction with a store address that completes stores its byte there and no other. -/
theorem Completes.storesByte {i : Instr} {s u : State} {ea : Addr} (h : Completes i s u) (hidle : s.agenda = [])
    (hmem : s.MemWf) (hea : storeAddress i s = some ea) :
    ∃ v, storedByte i s = some v ∧ StoresByte s u ea v ∧ u.bank = s.bank ∧ u.agenda = [] := by
  have hturn := hostTurn_idle hidle
  cases h with
  | keeps hstore => cases hstore.symm.trans hea
  | writesRegister hstore => cases hstore.symm.trans hea
  | writesRegisterAndFlag hstore => cases hstore.symm.trans hea
  | writesFlags hstore => cases hstore.symm.trans hea
  | @stores _ v haddr hbyte =>
    cases hea.symm.trans haddr
    rw [hturn]
    exact ⟨v, hbyte, State.poke_storesByte hmem ea v, rfl, hidle⟩
  | @pushes v _ _ haddr hbyte =>
    cases hea.symm.trans haddr
    rw [hturn]
    exact ⟨v, hbyte, State.poke_storesByte hmem s.sp v, rfl, hidle⟩
  | pops _ _ haddr hbyte =>
    cases hea.symm.trans haddr
    rw [hturn, hturn]
    exact ⟨0, hbyte, State.poke_storesByte hmem (s.sp - 1) 0, rfl, hidle⟩
  | selects _ hstore => cases hstore.symm.trans hea

/-- Settles O15: a completed instruction stores one byte, or none where it has no store address; a jump and an error
store nothing. -/
theorem memoryChangesOnlyWhereStored : Obligations.MemoryChangesOnlyWhereStored := by
  intro i s t hidle hmem hexec k b hchanged
  cases execResult_of_exec hexec with
  | completes h =>
    rw [State.setPc_readAs] at hchanged
    cases hea : storeAddress i s with
    | none => exact absurd (h.sameMemory hidle hea k b) hchanged
    | some ea =>
      obtain ⟨v, -, hstores, -, -⟩ := h.storesByte hidle hmem hea
      rw [hstores k b] at hchanged
      obtain ⟨⟨rfl, hcell⟩, -⟩ := ite_ne_right_iff.mp hchanged
      exact ⟨rfl, hcell⟩
  | jumps => exact absurd rfl hchanged
  | raises e n => exact absurd ((HostActs.iterate s n).readAs_idle hidle k b) hchanged

/-! ## The next fetch -/

/-- A byte stored through the active bank, with the host idle, is what the next fetch reads at its address. -/
theorem fetchSees_of_storesByte {s t : State} {ea : Addr} {v : Byte} (hidle : t.agenda = [])
    (hbank : t.bank = s.bank) (h : StoresByte s t ea v) : FetchSees s t ea v := by
  have hpeek : ∀ a, t.peek a = if ea = a then v else s.peek a := fun a => by
    rw [State.peek, h t.bank a, hbank]
    simp only [true_or, and_true, eq_comm (a := a), State.peek]
  intro h0 h1 h2 h3
  exact ⟨_, fetch_idle hidle ⟨h0, h1, h2, h3⟩, hpeek _, hpeek _, hpeek _, hpeek _⟩

/-- An instruction's length moves `pc`, so an error, which does not, is no completion. -/
theorem add_length_ne (i : Instr) (a : Addr) : a + BitVec.ofNat 16 i.length ≠ a := by
  obtain ⟨hlow, hhigh⟩ := Laws.EncodedLength.formLength_bounds i.operation i.mode
  intro h
  have hnat := congrArg BitVec.toNat h
  rw [BitVec.toNat_add, BitVec.toNat_ofNat, Instr.length] at hnat
  have ha : a.toNat < 2 ^ 16 := a.isLt
  omega

/-- Settles O39: an instruction with a store address that has moved `pc` on has completed, and stored its byte. -/
theorem storeIsSeenByNextFetch : Obligations.StoreIsSeenByNextFetch := by
  constructor
  · intro i s t ea hidle hmem hea hexec hpc
    cases execResult_of_exec hexec with
    | completes h =>
      obtain ⟨v, hbyte, hstores, hbank, hagenda⟩ := h.storesByte hidle hmem hea
      exact ⟨v, hbyte, fetchSees_of_storesByte hagenda hbank hstores⟩
    | jumps h => cases h.storeAddress_eq_none.symm.trans hea
    | raises e n => exact absurd (hpc.symm.trans (HostActs.iterate s n).sameCore.pc) (add_length_ne i s.pc)
  · intro s ea v hidle hmem hmapped
    have hset : applyHost (.set ea v) s = s.poke ea v := if_pos hmapped
    rw [hset]
    exact fetchSees_of_storesByte hidle rfl (State.poke_storesByte hmem ea v)

end Sys2Proof.Machine
end

section
/-! The register check, over all forms (30_encoding.md R90; 40_cycle.md R112): the first field above 7 is named, and
nothing of the form is done. -/

namespace Sys2Proof.Machine

theorem RegField.valid_eq_false_iff {r : RegField} : r.valid = false ↔ 8 ≤ r.toNat := by
  rw [RegField.valid, decide_eq_false_iff_not, Nat.not_lt]

/-- The first invalid register field of instruction `i` is what its execution raises on, and all that it does. -/
def RaisesOnFirstBadField (i : Instr) (s : State) : Prop :=
  ∃ r, i.regFields.find? (fun f => !f.valid) = some r ∧ exec i s = .next (raise (.invalidRegister r) s)

section
variable {s : State}

theorem raisesFirst_of_oneField {f : RegField → Instr} {r : RegField} (hf : RaisesOnBadField f)
    (hfields : (f r).regFields = [r]) (hill : (f r).wellFormed = false) : RaisesOnFirstBadField (f r) s := by
  have hr : r.valid = false := by simpa [Instr.wellFormed, hfields] using hill
  exact ⟨r, by simp [hfields, hr], hf r s (RegField.valid_eq_false_iff.mp hr)⟩

theorem raisesFirst_of_twoFields {f : RegField → RegField → Instr} {p q : RegField} (hf : RaisesOnBadFields f)
    (hfields : (f p q).regFields = [p, q]) (hill : (f p q).wellFormed = false) : RaisesOnFirstBadField (f p q) s := by
  cases hp : p.valid
  case false => exact ⟨p, by simp [hfields, hp], (hf p q s).1 (RegField.valid_eq_false_iff.mp hp)⟩
  case true =>
    have hq : q.valid = false := by simpa [Instr.wellFormed, hfields, hp] using hill
    have hlt : p.toNat < 8 := of_decide_eq_true hp
    exact ⟨q, by simp [hfields, hp, hq], (hf p q s).2 hlt (RegField.valid_eq_false_iff.mp hq)⟩

end

/-- Settles O11: every form is a check of its register fields and then its handler. -/
theorem illFormedInstructionRaisesInvalidRegister : Obligations.IllFormedInstructionRaisesInvalidRegister := by
  intro i s hill
  cases i with
  | movImm rd imm =>
    exact raisesFirst_of_oneField (raisesOnBadField_of_withReg fun r s => exec_movImm r imm s) rfl hill
  | movReg rd rs => exact raisesFirst_of_twoFields (raisesOnBadFields_of_withRegs exec_movReg) rfl hill
  | jnzReg rc => exact raisesFirst_of_oneField (raisesOnBadField_of_withReg exec_jnzReg) rfl hill
  | jnzImm imm => cases hill
  | lwPair rd => exact raisesFirst_of_oneField (raisesOnBadField_of_withReg exec_lwPair) rfl hill
  | lwAbs rd ea => exact raisesFirst_of_oneField (raisesOnBadField_of_withReg fun r s => exec_lwAbs r ea s) rfl hill
  | swPair rs => exact raisesFirst_of_oneField (raisesOnBadField_of_withReg exec_swPair) rfl hill
  | swAbs rs ea => exact raisesFirst_of_oneField (raisesOnBadField_of_withReg fun r s => exec_swAbs r ea s) rfl hill
  | pushReg rs => exact raisesFirst_of_oneField (raisesOnBadField_of_withReg exec_pushReg) rfl hill
  | pushImm imm => cases hill
  | popReg rd => exact raisesFirst_of_oneField (raisesOnBadField_of_withReg exec_popReg) rfl hill
  | inImm rd port =>
    exact raisesFirst_of_oneField (raisesOnBadField_of_withReg fun r s => exec_inImm r port s) rfl hill
  | inReg rd rp => exact raisesFirst_of_twoFields (raisesOnBadFields_of_withRegs exec_inReg) rfl hill
  | outImm rs port =>
    exact raisesFirst_of_oneField (raisesOnBadField_of_withReg fun r s => exec_outImm r port s) rfl hill
  | outReg rs rp => exact raisesFirst_of_twoFields (raisesOnBadFields_of_withRegs exec_outReg) rfl hill
  | adcImm ra imm =>
    exact raisesFirst_of_oneField (raisesOnBadField_of_operandsImm fun r s => exec_adcImm r imm s) rfl hill
  | adcReg ra rb => exact raisesFirst_of_twoFields (raisesOnBadFields_of_operandsReg exec_adcReg) rfl hill
  | sbbImm ra imm =>
    exact raisesFirst_of_oneField (raisesOnBadField_of_operandsImm fun r s => exec_sbbImm r imm s) rfl hill
  | sbbReg ra rb => exact raisesFirst_of_twoFields (raisesOnBadFields_of_operandsReg exec_sbbReg) rfl hill
  | cmpImm ra imm =>
    exact raisesFirst_of_oneField (raisesOnBadField_of_operandsImm fun r s => exec_cmpImm r imm s) rfl hill
  | cmpReg ra rb => exact raisesFirst_of_twoFields (raisesOnBadFields_of_operandsReg exec_cmpReg) rfl hill
  | andImm ra imm => exact raisesFirst_of_oneField (writeOpImm_raisesOnBadField exec_andImm imm) rfl hill
  | andReg ra rb => exact raisesFirst_of_twoFields (writeOpReg_raisesOnBadFields exec_andReg) rfl hill
  | orImm ra imm => exact raisesFirst_of_oneField (writeOpImm_raisesOnBadField exec_orImm imm) rfl hill
  | orReg ra rb => exact raisesFirst_of_twoFields (writeOpReg_raisesOnBadFields exec_orReg) rfl hill
  | norImm ra imm => exact raisesFirst_of_oneField (writeOpImm_raisesOnBadField exec_norImm imm) rfl hill
  | norReg ra rb => exact raisesFirst_of_twoFields (writeOpReg_raisesOnBadFields exec_norReg) rfl hill
  | bankReg rs => exact raisesFirst_of_oneField (raisesOnBadField_of_withReg exec_bankReg) rfl hill
  | bankImm imm => cases hill

end Sys2Proof.Machine
end

section
/-! Decoding and encoding agree (30_encoding.md R81 to R97): the fields of each byte, the operation numbers of an OPMAP,
and the operands of each format. -/

namespace Sys2Proof.Machine

/-! ## The fields of a byte -/

@[simp] theorem lowNibble_oneReg (r : RegField) : lowNibble (oneReg r) = r := BitVec.extractLsb'_append_eq_right

@[simp] theorem lowNibble_twoRegs (p q : RegField) : lowNibble (twoRegs p q) = p := BitVec.extractLsb'_append_eq_right

@[simp] theorem highNibble_twoRegs (p q : RegField) : highNibble (twoRegs p q) = q :=
  BitVec.extractLsb'_append_eq_left

@[simp] theorem twoRegs_nibbles (b1 : Byte) : twoRegs (lowNibble b1) (highNibble b1) = b1 :=
  (BitVec.extractLsb'_append_extractLsb'_eq_extractLsb' rfl).trans BitVec.extractLsb'_eq_self

@[simp] theorem joinBytes_bytes (a : Addr) : joinBytes (highByte a) (lowByte a) = a :=
  (BitVec.extractLsb'_append_extractLsb'_eq_extractLsb' rfl).trans BitVec.extractLsb'_eq_self

theorem modeOfNumber_modeNumber (m : AddressingMode) : modeOfNumber (modeNumber m) = m := by
  cases m <;> rfl

theorem modeNumber_modeOfNumber (n : BitVec 2) : modeNumber (modeOfNumber n) = n := by
  revert n
  decide

theorem opField_encodeByte0 (m : OpMap) (i : Instr) : opField (encodeByte0 m i) = opNumber m i.operation :=
  BitVec.extractLsb'_append_eq_left

theorem modeField_encodeByte0 (m : OpMap) (i : Instr) : modeField (encodeByte0 m i) = i.mode :=
  (congrArg modeOfNumber BitVec.extractLsb'_append_eq_right).trans (modeOfNumber_modeNumber i.mode)

/-- Byte 0 is its operation code and its mode number (30_encoding.md R81). -/
theorem opField_append_modeNumber (b0 : Byte) : opField b0 ++ modeNumber (modeField b0) = b0 := by
  rw [modeField, modeNumber_modeOfNumber]
  exact (BitVec.extractLsb'_append_extractLsb'_eq_extractLsb' rfl).trans BitVec.extractLsb'_eq_self

/-! ## The numbers of the operations under an OPMAP (30_encoding.md R84) -/

section
variable {m : OpMap}

theorem mem_operation_all (o : Operation) : o ∈ Operation.all := by
  cases o <;> decide

theorem mem_of_complete (hm : m.complete = true) (o : Operation) : o ∈ m.toList :=
  List.contains_iff_mem.mp (List.all_eq_true.mp hm o (mem_operation_all o))

/-- With 15 places for 15 operations, an OPMAP that numbers each numbers none twice. -/
theorem nodup_of_complete (hm : m.complete = true) : m.toList.Nodup := by
  have hall : Operation.all.Nodup := by decide
  have hsub : Operation.all.Subperm m.toList := List.subperm_of_subset hall fun o _ => mem_of_complete hm o
  exact (hsub.perm_of_length_le m.length_toList.le).nodup_iff.mp hall

theorem idxOf_lt_of_complete (hm : m.complete = true) (o : Operation) : m.toList.idxOf o < 15 :=
  (List.idxOf_lt_length_of_mem (mem_of_complete hm o)).trans_eq m.length_toList

theorem opNumber_toNat (hm : m.complete = true) (o : Operation) : (opNumber m o).toNat = m.toList.idxOf o := by
  rw [opNumber, BitVec.toNat_ofNat]
  exact Nat.mod_eq_of_lt ((idxOf_lt_of_complete hm o).trans (by decide))

/-- The operation at the number of an operation is that operation. -/
theorem opMap_opNumber (hm : m.complete = true) (o : Operation) :
    ∃ h : (opNumber m o).toNat < 15, m[(opNumber m o).toNat] = o := by
  have hlt := idxOf_lt_of_complete hm o
  refine ⟨(opNumber_toNat hm o).trans_lt hlt, ?_⟩
  simp only [opNumber_toNat hm]
  rw [← Vector.getElem_toList (m.length_toList.symm ▸ hlt), List.getElem_idxOf]

/-- The number of the operation at a number is that number. -/
theorem opNumber_opMap (hm : m.complete = true) (op : BitVec 6) (h : op.toNat < 15) : opNumber m m[op.toNat] = op := by
  have hlt : op.toNat < m.toList.length := m.length_toList.symm ▸ h
  apply BitVec.eq_of_toNat_eq
  rw [opNumber_toNat hm, ← Vector.getElem_toList hlt]
  exact (nodup_of_complete hm).idxOf_getElem _ hlt

end

/-! ## The operands -/

/-- The operands that an instruction's encoding puts after byte 0 are read back from there, whatever follows. -/
theorem formOf_windowOf (b0 : Byte) (i : Instr) (following : List Byte) :
    formOf i.operation i.mode (windowOf (b0 :: encodeOperands i ++ following)) = some i := by
  cases i <;> simp [Instr.operation, Instr.mode, encodeOperands, windowOf, formOf]

/-- The bytes that an instruction of a window has after byte 0: as many as it is long, the ignored high nibble of byte 1
written as 0. -/
theorem encodeOperands_of_formOf {o : Operation} {m : AddressingMode} {w : Window} {i : Instr}
    (h : formOf o m w = some i) :
    encodeOperands i
      = ([if i.mode = .r1i0 ∨ i.mode = .r1i1 then oneReg (lowNibble w.b1) else w.b1, w.b2, w.b3].take
          (i.length - 1)) := by
  cases o <;> cases m <;> cases h <;> simp [encodeOperands, Instr.mode, Instr.length, formLength, Instr.operation]

/-- A form reads bytes 1 to 3 alone, and of byte 1 in the single-register modes the low nibble alone. -/
theorem formOf_congr {o : Operation} {m : AddressingMode} {w v : Window} (hlow : lowNibble w.b1 = lowNibble v.b1)
    (hb1 : m = .r0i1 ∨ m = .r2i0 → w.b1 = v.b1) (hb2 : m = .r1i1 → w.b2 = v.b2)
    (hb3 : m = .r1i1 → o = .lw ∨ o = .sw → w.b3 = v.b3) : formOf o m w = formOf o m v := by
  cases m with
  | r1i0 => cases o <;> simp [formOf, hlow]
  | r0i1 => cases o <;> simp [formOf, hb1]
  | r1i1 => cases o <;> simp_all [formOf]
  | r2i0 => cases o <;> simp [formOf, hb1]

/-! ## The decoder -/

section
variable {m : OpMap} {w v : Window} {i : Instr}

/-- A window decodes to an instruction exactly when its operation has that form in its mode. -/
theorem decodeWith_eq_form_iff :
    decodeWith m w = .form i ↔
      ∃ h : (opField w.b0).toNat < 15, formOf m[(opField w.b0).toNat] (modeField w.b0) w = some i := by
  constructor
  · intro hdecode
    rcases Nat.lt_or_ge (opField w.b0).toNat 15 with hop | hop
    · cases hform : formOf m[(opField w.b0).toNat] (modeField w.b0) w with
      | none => cases (decodeWith_of_none hop hform).symm.trans hdecode
      | some j =>
        cases (decodeWith_of_some hop hform).symm.trans hdecode
        exact ⟨hop, hform⟩
    · cases (decodeWith_of_le hop).symm.trans hdecode
  · rintro ⟨hop, hform⟩
    exact decodeWith_of_some hop hform

/-- Windows with the same byte 0 whose forms agree decode alike. -/
theorem decodeWith_congr (hb0 : w.b0 = v.b0)
    (hform : ∀ o, formOf o (modeField w.b0) w = formOf o (modeField w.b0) v) : decodeWith m w = decodeWith m v := by
  simp only [decodeWith, ← hb0, hform]

end

/-- Settles O41: byte 0 gives the operation and the mode back, and the bytes after it the operands. -/
theorem decodeOfEncodeIsIdentity : Obligations.DecodeOfEncodeIsIdentity := by
  intro m i following hm
  rw [decodeWith_eq_form_iff]
  change ∃ h : (opField (encodeByte0 m i)).toNat < 15, formOf m[(opField (encodeByte0 m i)).toNat]
    (modeField (encodeByte0 m i)) (windowOf (encodeByte0 m i :: encodeOperands i ++ following)) = some i
  simp only [opField_encodeByte0, modeField_encodeByte0]
  obtain ⟨hop, hoperation⟩ := opMap_opNumber hm i.operation
  exact ⟨hop, hoperation.symm ▸ formOf_windowOf _ i following⟩

/-- Settles O42: the instruction's operation and mode are those of byte 0, and its operands those of the bytes after. -/
theorem encodeOfDecodeGivesBytesBack : Obligations.EncodeOfDecodeGivesBytesBack := by
  intro m w i hm hdecode
  obtain ⟨hop, hform⟩ := decodeWith_eq_form_iff.mp hdecode
  obtain ⟨hoperation, hmode⟩ := formOf_operation_mode hform
  have hb0 : encodeByte0 m i = w.b0 := by
    rw [encodeByte0, hoperation, hmode, opNumber_opMap hm, opField_append_modeNumber]
  obtain ⟨n, hn⟩ : ∃ n, i.length = n + 1 :=
    Nat.exists_eq_add_of_le' ((by decide : 1 ≤ 2).trans (Laws.EncodedLength.formLength_bounds _ _).1)
  rw [encodeWith, hb0, encodeOperands_of_formOf hform, hn]
  rfl

/-- Settles O44: no form reads an ignored bit. -/
theorem ignoredBitsDoNotChangeDecoding : Obligations.IgnoredBitsDoNotChangeDecoding := by
  intro m w v hb0 hlow
  refine ⟨fun hmode => ?_, fun hmode hb2 hb3 => ?_, fun hmode hb1 => ?_, fun i hdecode hlen hb1 hb2 => ?_⟩
  · refine decodeWith_congr hb0 fun o => formOf_congr hlow ?_ ?_ ?_ <;> simp [hmode]
  · refine decodeWith_congr hb0 fun o => formOf_congr hlow ?_ (fun _ => hb2) (fun _ _ => hb3)
    simp [hmode]
  · exact decodeWith_congr hb0 fun o => formOf_congr hlow (fun _ => hb1) (fun h => absurd h hmode)
      (fun h => absurd h hmode)
  · obtain ⟨hop, hform⟩ := decodeWith_eq_form_iff.mp hdecode
    obtain ⟨hoperation, hmode⟩ := formOf_operation_mode hform
    refine decodeWith_eq_form_iff.mpr ⟨hb0 ▸ hop, ?_⟩
    simp only [← hb0]
    rw [← hform]
    refine (formOf_congr hlow (fun _ => hb1) (fun _ => hb2) fun hr1i1 hlwsw => ?_).symm
    rw [Instr.length, hoperation, hmode, hr1i1, formLength, if_pos hlwsw] at hlen
    exact absurd hlen (by decide)

/-- Settles O45, by running the decoder on the words. -/
theorem sampleWordsDecode : Obligations.SampleWordsDecode := by
  unfold Obligations.SampleWordsDecode
  decide

end Sys2Proof.Machine
end

section
/-! MOV R2I0 (41_mov.md R131). -/

namespace Sys2Proof.Machine

@[simp] theorem withRegs_fieldOf (i j : RegIndex) (s : State) (k : RegIndex → RegIndex → Access Nat) :
    withRegs (fieldOf i) (fieldOf j) s k = k i j := by
  simp [withRegs]

theorem decode_movReg (b1 b2 b3 : Byte) :
    decode ⟨0x03, b1, b2, b3⟩ = .form (.movReg (lowNibble b1) (highNibble b1)) :=
  decode_of_b0 (o := .mov) (m := .r2i0) (by decide) (by decide) rfl

/-- Settles O17: its decoding, then both register checks passed and the primary written, then a check failed. -/
theorem movRegisterCopiesRegister : Obligations.MovRegisterCopiesRegister := by
  refine ⟨decode_movReg, fun s i j => ?_, raisesOnBadFields_of_withRegs exec_movReg⟩
  rw [exec_movReg, withRegs_fieldOf]
  exact retire_setReg_registerResult (SameCore.refl s) i _ (by decide)

end Sys2Proof.Machine
end

section
/-! ADC and SBB (46_alu.md R191, R192, R196, R197). Both write a result to a register and then one flag of F, so what
that leaves is said once, for any result and any flag. -/

namespace Sys2Proof.Machine

/-! ## The difference of SBB -/

theorem aluSbb_fst_toNat (a b : Byte) (bin : Bool) :
    ((aluSbb a b bin).1.toNat : Int) = ((a.toNat : Int) - b.toNat - bin.toNat) % 256 := by
  rw [aluSbb, BitVec.toNat_ofInt]
  exact Int.toNat_of_nonneg (Int.emod_nonneg _ (by decide))

theorem aluSbb_snd_eq_true_iff (a b : Byte) (bin : Bool) :
    (aluSbb a b bin).2 = true ↔ a.toNat < b.toNat + bin.toNat := by
  rw [aluSbb, decide_eq_true_iff]
  omega

/-- Settles O32: the result is the byte of the difference, the borrow the test that the difference is negative. -/
theorem subtractWithBorrowIsExact : Obligations.SubtractWithBorrowIsExact :=
  fun a b bin => ⟨aluSbb_fst_toNat a b bin, aluSbb_snd_eq_true_iff a b bin⟩

/-- The result of SBB as a difference of bytes. -/
theorem aluSbb_fst (a b : Byte) (bin : Bool) : (aluSbb a b bin).1 = a - b - BitVec.ofNat 8 bin.toNat := by
  have hexact := aluSbb_fst_toNat a b bin
  have hbin : bin.toNat ≤ 1 := bin.toNat_le
  apply BitVec.eq_of_toNat_eq
  simp only [BitVec.toNat_sub, BitVec.toNat_ofNat]
  omega

theorem aluSbb_snd (a b : Byte) (bin : Bool) : (aluSbb a b bin).2 = decide (a.toNat < b.toNat + bin.toNat) := by
  rw [Bool.eq_iff_iff, aluSbb_snd_eq_true_iff, decide_eq_true_iff]

/-! ## A result and a flag -/

/-- F after a register has been written. -/
theorem State.setReg_flagReg (s : State) (i : RegIndex) (v : Byte) :
    (s.setReg i v).flagReg = if i = s.params.regMap.f then v else s.flagReg := by
  simp only [State.flagReg, State.setReg_reg, State.setReg_params, eq_comm]

/-- The end of an instruction whose handler wrote register `i`, then flag `g`, and returned its length. -/
theorem retire_setReg_setFlag_arithResult (s : State) (i : RegIndex) (res : Byte) (g : Flag) (out : Bool) {len : Nat}
    (hlen : len ≠ 0) :
    NextIs (retire (.done len ((s.setReg i res).setFlag g out))) fun t =>
      ArithResult s t i res g out (BitVec.ofNat 16 len) := by
  rw [retire_done, if_neg hlen]
  have hreg : i ≠ s.params.regMap.f → ((s.setReg i res).setFlag g out).reg i = res := fun hi => by
    rw [State.setFlag_reg_of_ne (s.setReg i res) g out hi, State.setReg_reg_self]
  have hflag : ((s.setReg i res).setFlag g out).flag g = out := by
    rw [State.setFlag_flag, if_pos rfl]
  have hbits : ∀ n, n ≠ g.bit → ((s.setReg i res).setFlag g out).flagReg.getLsbD n
      = (if i = s.params.regMap.f then res else s.flagReg).getLsbD n := fun n hn => by
    rw [State.setFlag_flagReg_getLsbD, if_neg hn, State.setReg_flagReg]
  have hothers : ∀ j, j ≠ i → j ≠ s.params.regMap.f → ((s.setReg i res).setFlag g out).reg j = s.reg j :=
    fun j hi hf => by rw [State.setFlag_reg_of_ne (s.setReg i res) g out hf, State.setReg_reg_of_ne s res hi]
  exact ⟨_, rfl, hreg, hflag, hbits, hothers, rfl, rfl, rfl, fun _ _ => rfl, rfl, rfl, rfl, rfl, rfl, rfl⟩

theorem retire_addInto_arithResult (i : RegIndex) (a b : Byte) (s : State) {len : Nat} (hlen : len ≠ 0) :
    NextIs (retire (.done len (addInto i a b s))) fun t =>
      ArithResult s t i (BitVec.ofNat 8 (a.toNat + b.toNat + (s.flag .carry).toNat)) .carry
        (decide (256 ≤ a.toNat + b.toNat + (s.flag .carry).toNat)) (BitVec.ofNat 16 len) :=
  retire_setReg_setFlag_arithResult s i (aluAdc a b (s.flag .carry)).1 .carry (aluAdc a b (s.flag .carry)).2 hlen

theorem retire_subInto_arithResult (i : RegIndex) (a b : Byte) (s : State) {len : Nat} (hlen : len ≠ 0) :
    NextIs (retire (.done len (subInto i a b s))) fun t =>
      ArithResult s t i (a - b - BitVec.ofNat 8 (s.flag .borrow).toNat) .borrow
        (decide (a.toNat < b.toNat + (s.flag .borrow).toNat)) (BitVec.ofNat 16 len) := by
  rw [← aluSbb_fst, ← aluSbb_snd]
  exact retire_setReg_setFlag_arithResult s i _ .borrow _ hlen

/-- Settles O33: both forms add into their register and write CARRY. -/
theorem adcWritesSumThenCarry : Obligations.AdcWritesSumThenCarry := by
  refine ⟨fun s i imm => ?imm, fun s i j => ?reg,
    fun imm => raisesOnBadField_of_operandsImm fun r s => exec_adcImm r imm s,
    raisesOnBadFields_of_operandsReg exec_adcReg⟩
  case imm =>
    rw [exec_adcImm, operandsImm_fieldOf]
    exact retire_addInto_arithResult i _ _ s (by decide)
  case reg =>
    rw [exec_adcReg, operandsReg_fieldOf]
    exact retire_addInto_arithResult i _ _ s (by decide)

/-- Settles O34: both forms subtract into their register and write BORROW. -/
theorem sbbWritesDifferenceThenBorrow : Obligations.SbbWritesDifferenceThenBorrow := by
  refine ⟨fun s i imm => ?imm, fun s i j => ?reg,
    fun imm => raisesOnBadField_of_operandsImm fun r s => exec_sbbImm r imm s,
    raisesOnBadFields_of_operandsReg exec_sbbReg⟩
  case imm =>
    rw [exec_sbbImm, operandsImm_fieldOf]
    exact retire_subInto_arithResult i _ _ s (by decide)
  case reg =>
    rw [exec_sbbReg, operandsReg_fieldOf]
    exact retire_subInto_arithResult i _ _ s (by decide)

end Sys2Proof.Machine
end

section
/-! JNZ (44_branch.md R160, R161, R163). -/

namespace Sys2Proof.Machine

theorem branchOn_zero (s : State) : branchOn 0 s = .done 2 s := if_pos rfl

theorem branchOn_ne_zero {c : Byte} (s : State) (hc : c ≠ 0) : branchOn c s = .done 0 (s.setPc s.xy) := if_neg hc

/-- Nothing but `pc` written, over a state `h` that differs from `s` by host turns and hook calls at most. -/
theorem pcResult_setPc {s h : State} (hcore : SameCore s h) (a : Addr) : PcResult s h (h.setPc a) a :=
  ⟨rfl, hcore.reg, hcore.sp, rfl, fun _ _ => rfl, rfl, rfl, rfl, rfl, rfl, rfl⟩

/-- The end of an instruction whose handler branched. -/
theorem retire_branchOn_pcResult (c : Byte) (s : State) :
    NextIs (retire (branchOn c s)) fun t => PcResult s s t (if c = 0 then s.pc + 2 else s.xy) := by
  rcases eq_or_ne c 0 with rfl | hc
  · rw [branchOn_zero, if_pos rfl]
    exact ⟨_, rfl, pcResult_setPc (SameCore.refl s) _⟩
  · rw [branchOn_ne_zero s hc, if_neg hc]
    exact ⟨_, rfl, pcResult_setPc (SameCore.refl s) _⟩

/-- Under the parameter's default the condition is the immediate, else the constant 1 (44_branch.md R161). -/
theorem jnzImmCondition_eq_zero_iff (cond : JnzImmCond) (imm : Byte) :
    jnzImmCondition cond imm = 0 ↔ cond = .imm ∧ imm = 0 := by
  cases cond <;> simp [jnzImmCondition]

theorem jnzReg_fieldOf (i : RegIndex) (s : State) : jnzReg (fieldOf i) s = branchOn (s.reg i) s :=
  withReg_fieldOf i s _

/-- Settles O25: both handlers branch on their condition byte. -/
theorem jnzJumpsToPairOnNonzero : Obligations.JnzJumpsToPairOnNonzero := by
  refine ⟨fun s i => ?reg, fun s imm => ?imm, fun s i => ?handlerReg, fun s imm => ?handlerImm,
    raisesOnBadField_of_withReg exec_jnzReg⟩
  case reg =>
    rw [exec_jnzReg, withReg_fieldOf]
    exact retire_branchOn_pcResult _ s
  case imm =>
    simp only [exec_jnzImm, ← jnzImmCondition_eq_zero_iff]
    exact retire_branchOn_pcResult _ s
  case handlerReg =>
    rw [jnzReg_fieldOf]
    exact ⟨branchOn_ne_zero s, fun h => h ▸ branchOn_zero s⟩
  case handlerImm =>
    rw [jnzImm]
    exact ⟨branchOn_ne_zero s, fun h => h ▸ branchOn_zero s⟩

end Sys2Proof.Machine
end

section
/-! PUSH and POP (43_stack.md R150 to R152). -/

namespace Sys2Proof.Machine

/-! ## One PUSH, one POP -/

section
variable {s : State} (v : Byte) (i : RegIndex)

theorem exec_pushReg_fieldOf (s : State) : exec (.pushReg (fieldOf i)) s = retire (pushByte (s.reg i) s) := by
  rw [exec_pushReg, withReg_fieldOf]

theorem exec_popReg_fieldOf (s : State) : exec (.popReg (fieldOf i)) s = retire (popByte i s) := by
  rw [exec_popReg, withReg_fieldOf]

/-- The state that a completed PUSH of `v` leaves. -/
def State.pushed (s : State) (v : Byte) : State :=
  (((hostTurn s).poke s.sp v).setSp (s.sp + 1)).setPc (s.pc + 2)

/-- The state that a completed POP into register `i` leaves. -/
def State.popped (s : State) (i : RegIndex) : State :=
  ((((hostTurn (hostTurn s)).poke (s.sp - 1) 0).setReg i ((hostTurn s).peek (s.sp - 1))).setSp (s.sp - 1)).setPc
    (s.pc + 2)

theorem retire_pushByte (h : s.sp.toNat < s.params.stackEnd.toNat) (hm : mapped s.params s.sp = true) :
    retire (pushByte v s) = .next (s.pushed v) := by
  rw [pushByte_mapped v h hm, retire_done, State.pushed]
  simp

theorem retire_popByte (h : s.params.stack.toNat < s.sp.toNat) (hm : mapped s.params (s.sp - 1) = true) :
    retire (popByte i s) = .next (s.popped i) := by
  rw [popByte_mapped i h hm, retire_done, State.popped]
  simp

theorem retire_pushByte_unmapped (h : s.sp.toNat < s.params.stackEnd.toNat) (hm : mapped s.params s.sp = false) :
    retire (pushByte v s) = .next (raise (.memoryAddress s.sp) (hostTurn s)) := by
  rw [pushByte_unmapped v h hm, retire_raised]

theorem retire_pushByte_full (h : s.params.stackEnd.toNat ≤ s.sp.toNat) :
    retire (pushByte v s) = .next (raise (.stackOverflow s.sp) s) := by
  rw [pushByte_full v h, retire_raised]

theorem State.pushed_storeResult (hmem : s.MemWf) :
    StoreResult s (hostTurn s) (s.pushed v) s.sp v (s.sp + 1) 2 :=
  ⟨State.poke_storesByte (hostTurn_memWf hmem) s.sp v, hostTurn_reg s, rfl, rfl, rfl, rfl, rfl, rfl, rfl, rfl, rfl⟩

theorem State.popped_reg_self (s : State) : (s.popped i).reg i = (hostTurn s).peek (s.sp - 1) := by
  rw [State.popped, State.setPc_reg, State.setSp_reg, State.setReg_reg_self]

theorem State.popped_sameRegsBut (s : State) : SameRegsBut i s (s.popped i) := by
  intro j hj
  rw [State.popped, State.setPc_reg, State.setSp_reg, State.setReg_reg_of_ne _ _ hj, State.poke_reg, hostTurn_reg,
    hostTurn_reg]

theorem State.popped_storesByte (hmem : s.MemWf) :
    StoresByte (hostTurn (hostTurn s)) (s.popped i) (s.sp - 1) 0 :=
  State.poke_storesByte (hostTurn_memWf (hostTurn_memWf hmem)) (s.sp - 1) 0

end

/-- Settles O20: both forms push a byte, the register's or the immediate. -/
theorem pushStoresAtSpAndIncrements : Obligations.PushStoresAtSpAndIncrements := by
  refine ⟨fun s i hmem hlimit hmapped => ?reg, fun s imm hmem hlimit hmapped => ?imm,
    fun s i imm hlimit hunmapped => ⟨?regUnmapped, ?immUnmapped⟩⟩
  case reg =>
    rw [exec_pushReg_fieldOf, retire_pushByte _ hlimit hmapped]
    exact ⟨_, rfl, State.pushed_storeResult _ hmem⟩
  case imm =>
    rw [exec_pushImm, retire_pushByte _ hlimit hmapped]
    exact ⟨_, rfl, State.pushed_storeResult _ hmem⟩
  case regUnmapped => rw [exec_pushReg_fieldOf, retire_pushByte_unmapped _ hlimit hunmapped]
  case immUnmapped => rw [exec_pushImm, retire_pushByte_unmapped _ hlimit hunmapped]

/-- Settles O21: the byte read after the first turn of the host is the one POP gives, and the cell is cleared after the
second. -/
theorem popLoadsClearsAndDecrements : Obligations.PopLoadsClearsAndDecrements := by
  intro s i hmem hlimit hmapped
  rw [exec_popReg_fieldOf, retire_popByte i hlimit hmapped]
  exact ⟨_, rfl, s.popped_reg_self i, s.popped_sameRegsBut i, State.popped_storesByte i hmem, rfl, rfl, rfl, rfl, rfl,
    rfl, rfl, rfl, rfl⟩

/-- Settles O22: the limits are tested before any access. -/
theorem stackLimitsRaise : Obligations.StackLimitsRaise := by
  refine ⟨fun s i imm hfull => ⟨?reg, ?imm⟩, fun s i hempty => ?empty, fun s i hlimit hunmapped => ?unmapped⟩
  case reg => rw [exec_pushReg_fieldOf, retire_pushByte_full _ hfull]
  case imm => rw [exec_pushImm, retire_pushByte_full _ hfull]
  case empty => rw [exec_popReg_fieldOf, popByte_empty i hempty, retire_raised]
  case unmapped => rw [exec_popReg_fieldOf, popByte_unmapped i hlimit hunmapped, retire_raised]

/-- Settles O24: the host's write comes after the read and before the clearing write, to the same cell. -/
theorem hostWriteInsidePopIsLost : Obligations.HostWriteInsidePopIsLost := by
  intro s i v hagenda hmem hlimit hmapped
  rw [exec_popReg_fieldOf, retire_popByte i hlimit hmapped]
  have hfirst : hostTurn s = { s with agenda := [[.set (s.sp - 1) v]] } := by
    simp [hostTurn, hagenda, applyHosts]
  have hsecond : hostTurn (hostTurn s) = ({ s with agenda := [] } : State).poke (s.sp - 1) v := by
    rw [hfirst]
    exact if_pos hmapped
  have hstored := State.popped_storesByte i hmem
  rw [hsecond] at hstored
  refine ⟨_, rfl, ?_, ?_, rfl, fun k a ha => ?_⟩
  · rw [State.popped_reg_self, hfirst]
    rfl
  · rw [State.peek, hstored, State.popped, hsecond]
    simp
  · rw [hstored, if_neg fun h => ha h.1, State.poke_readAs (s := { s with agenda := [] }) hmem, if_neg fun h => ha h.1]
    rfl

/-! ## A run of pushes and pops -/

/-- A running core with no host operation pending and memory in canonical form. -/
structure State.Quiet (s : State) : Prop where
  running : s.status = .running
  idle : s.agenda = []
  mem : s.MemWf

section
variable {s : State} (v : Byte) (i : RegIndex)

theorem State.Quiet.pushed_eq (h : s.Quiet) : s.pushed v = ((s.poke s.sp v).setSp (s.sp + 1)).setPc (s.pc + 2) := by
  rw [State.pushed, hostTurn_idle h.idle]

theorem State.Quiet.popped_eq (h : s.Quiet) :
    s.popped i = (((s.poke (s.sp - 1) 0).setReg i (s.peek (s.sp - 1))).setSp (s.sp - 1)).setPc (s.pc + 2) := by
  rw [State.popped, hostTurn_idle h.idle, hostTurn_idle h.idle]

theorem State.Quiet.pushed (h : s.Quiet) : (s.pushed v).Quiet := by
  rw [h.pushed_eq]
  exact ⟨h.running, h.idle, State.poke_memWf h.mem s.sp v⟩

theorem State.Quiet.popped (h : s.Quiet) : (s.popped i).Quiet := by
  rw [h.popped_eq]
  exact ⟨h.running, h.idle, State.poke_memWf h.mem (s.sp - 1) 0⟩

theorem State.Quiet.pushed_bank (h : s.Quiet) : (s.pushed v).bank = s.bank := by
  rw [h.pushed_eq]
  rfl

theorem State.Quiet.popped_bank (h : s.Quiet) : (s.popped i).bank = s.bank := by
  rw [h.popped_eq]
  rfl

theorem State.Quiet.popped_params (h : s.Quiet) : (s.popped i).params = s.params := by
  rw [h.popped_eq]
  rfl

theorem State.Quiet.pushed_storesByte (h : s.Quiet) : StoresByte s (s.pushed v) s.sp v := by
  have hstores := (State.pushed_storeResult v h.mem).1
  rwa [hostTurn_idle h.idle] at hstores

theorem State.Quiet.popped_storesByte (h : s.Quiet) : StoresByte s (s.popped i) (s.sp - 1) 0 := by
  have hstores := State.popped_storesByte i h.mem
  rwa [hostTurn_idle h.idle, hostTurn_idle h.idle] at hstores

theorem State.Quiet.popped_reg_self (h : s.Quiet) : (s.popped i).reg i = s.peek (s.sp - 1) := by
  rw [State.popped_reg_self, hostTurn_idle h.idle]

end

/-- The stored byte is read back through the same bank. -/
theorem StoresByte.peek {s t : State} {ea : Addr} {v : Byte} (h : StoresByte s t ea v) (hbank : t.bank = s.bank) :
    t.peek ea = v := by
  rw [State.peek, h, if_pos ⟨rfl, .inl hbank⟩]

/-- At every other address each byte of every bank is kept. -/
theorem StoresByte.readAs_of_ne {s t : State} {ea : Addr} {v : Byte} (h : StoresByte s t ea v) (k : Byte) {a : Addr}
    (ha : a ≠ ea) : t.readAs k a = s.readAs k a := by
  rw [h, if_neg fun hcell => ha hcell.1]

/-- Pops followed by one more pop. -/
theorem popAll_succ {i : RegIndex} {n : Nat} {s t u : State} {bytes : List Byte} (h : popAll i n s = some (bytes, t))
    (hpop : exec (.popReg (fieldOf i)) t = .next u) (hrun : u.status = .running) :
    popAll i (n + 1) s = some (bytes ++ [u.reg i], u) := by
  induction n generalizing s bytes with
  | zero =>
    cases h
    simp [popAll, hpop, hrun]
  | succ n ih =>
    rw [popAll] at h ⊢
    cases hfirst : exec (.popReg (fieldOf i)) s with
    | next s' =>
      simp only [hfirst] at h ⊢
      split at h
      · next hrun' =>
        obtain ⟨⟨rest, t'⟩, hrest, heq⟩ := Option.map_eq_some_iff.mp h
        cases heq
        rw [if_pos hrun', ih hrest]
        rfl
      · cases h
    | fault r => simp [hfirst] at h
    | refused r => simp [hfirst] at h

/-- Pushes of bytes from state `s` and as many pops into register `i` complete, in state `t` and then `u`; the pops give
the bytes in reverse and leave `u` as `s` but for the register, `pc` and the cells used, which are 0. -/
structure PopsUndoPushes (vs : List Byte) (i : RegIndex) (s t u : State) : Prop where
  pushes : execAll (vs.map Instr.pushImm) s = some t
  pops : popAll i vs.length t = some (vs.reverse, u)
  top : t.sp = s.sp + BitVec.ofNat 16 vs.length
  sp : u.sp = s.sp
  quiet : u.Quiet
  params : u.params = s.params
  bank : u.bank = s.bank
  cleared : ∀ n, n < vs.length → u.peek (s.sp + BitVec.ofNat 16 n) = 0
  others : ∀ k a, (∀ n, n < vs.length → a ≠ s.sp + BitVec.ofNat 16 n) → u.readAs k a = s.readAs k a

theorem ofNat_succ_add (a : Addr) (n : Nat) : a + BitVec.ofNat 16 (n + 1) = a + 1 + BitVec.ofNat 16 n := by
  rw [Nat.add_comm, BitVec.ofNat_add, ← BitVec.add_assoc]
  rfl

/-- Within the stack no cell above one is that one. -/
theorem ne_add_of_lt {a : Addr} {n : Nat} (h : a.toNat + n < 2 ^ 16) (hn : n ≠ 0) : a ≠ a + BitVec.ofNat 16 n := by
  intro heq
  have hnat := congrArg BitVec.toNat heq
  rw [BitVec.toNat_add, BitVec.toNat_ofNat] at hnat
  omega

/-- A byte pushed before others is popped after them. -/
theorem PopsUndoPushes.cons {v : Byte} {rest : List Byte} {i : RegIndex} {s t u : State} (hquiet : s.Quiet)
    (hlow : s.params.stack.toNat ≤ s.sp.toNat) (hhigh : s.sp.toNat + (rest.length + 1) ≤ s.params.stackEnd.toNat)
    (hmapped : mapped s.params s.sp = true) (h : PopsUndoPushes rest i (s.pushed v) t u) :
    PopsUndoPushes (v :: rest) i s t (u.popped i) := by
  have hend : s.params.stackEnd.toNat < 2 ^ 16 := s.params.stackEnd.isLt
  have hup : (s.sp + 1).toNat = s.sp.toNat + 1 := BitVec.toNat_add_of_lt (by simp; omega)
  have hparams : u.params = s.params := h.params.trans (hostTurn_params s)
  have hbank : u.bank = s.bank := h.bank.trans (hquiet.pushed_bank v)
  have husp : u.sp = s.sp + 1 := h.sp
  have htop : u.sp - 1 = s.sp := by rw [husp, BitVec.add_sub_cancel]
  have habove : ∀ n, n < rest.length → s.sp ≠ s.sp + 1 + BitVec.ofNat 16 n := fun n hn => by
    rw [← ofNat_succ_add]
    exact ne_add_of_lt (by omega) (Nat.succ_ne_zero n)
  have hpush : exec (.pushImm v) s = .next (s.pushed v) := retire_pushByte v (by omega) hmapped
  have hpop : exec (.popReg (fieldOf i)) u = .next (u.popped i) := by
    rw [exec_popReg_fieldOf, retire_popByte]
    · rw [hparams, husp, hup]
      omega
    · rwa [htop, hparams]
  have hpushed := hquiet.pushed_storesByte v
  have hpopped := h.quiet.popped_storesByte i
  rw [htop] at hpopped
  have hbyte : (u.popped i).reg i = v := by
    rw [h.quiet.popped_reg_self, htop, State.peek, h.others _ _ habove, hpushed, if_pos ⟨rfl, .inl hbank⟩]
  have hpopbank : (u.popped i).bank = u.bank := h.quiet.popped_bank i
  refine ⟨?pushes, ?pops, ?top, htop, h.quiet.popped i, (h.quiet.popped_params i).trans hparams,
    hpopbank.trans hbank, ?cleared, ?others⟩
  case pushes => simp only [List.map_cons, execAll, hpush, (hquiet.pushed v).running, if_true, h.pushes]
  case pops =>
    rw [List.length_cons, List.reverse_cons, ← hbyte]
    exact popAll_succ h.pops hpop (h.quiet.popped i).running
  case top =>
    rw [List.length_cons, ofNat_succ_add]
    exact h.top
  case cleared =>
    intro n hn
    cases n with
    | zero => simpa using hpopped.peek hpopbank
    | succ n =>
      rw [List.length_cons, Nat.succ_lt_succ_iff] at hn
      rw [ofNat_succ_add, State.peek, hpopped.readAs_of_ne _ (habove n hn).symm, hpopbank]
      exact h.cleared n hn
  case others =>
    intro k a ha
    have ha0 : a ≠ s.sp := by simpa using ha 0 (Nat.succ_pos _)
    have hrest : ∀ n, n < rest.length → a ≠ s.sp + 1 + BitVec.ofNat 16 n := fun n hn =>
      ofNat_succ_add s.sp n ▸ ha (n + 1) (Nat.succ_lt_succ hn)
    rw [hpopped.readAs_of_ne k ha0, h.others k a hrest, hpushed.readAs_of_ne k ha0]

/-- Pushes that fit and as many pops undo each other, by induction on the bytes. -/
theorem exists_popsUndoPushes (vs : List Byte) (i : RegIndex) (s : State) (hquiet : s.Quiet)
    (hlow : s.params.stack.toNat ≤ s.sp.toNat) (hhigh : s.sp.toNat + vs.length ≤ s.params.stackEnd.toNat)
    (hmapped : ∀ n, n < vs.length → mapped s.params (s.sp + BitVec.ofNat 16 n) = true) :
    ∃ t u, PopsUndoPushes vs i s t u := by
  induction vs generalizing s with
  | nil =>
    exact ⟨s, s, rfl, rfl, by simp, rfl, hquiet, rfl, rfl, fun n hn => absurd hn (Nat.not_lt_zero n), fun _ _ _ => rfl⟩
  | cons v rest ih =>
    rw [List.length_cons] at hhigh
    have hend : s.params.stackEnd.toNat < 2 ^ 16 := s.params.stackEnd.isLt
    have hup : (s.sp + 1).toNat = s.sp.toNat + 1 := BitVec.toNat_add_of_lt (by simp; omega)
    have hparams : (s.pushed v).params = s.params := hostTurn_params s
    have hsp : (s.pushed v).sp = s.sp + 1 := rfl
    obtain ⟨t, u, h⟩ := ih (s.pushed v) (hquiet.pushed v) (by rw [hparams, hsp, hup]; omega)
      (by rw [hparams, hsp, hup]; omega) fun n hn => by
        rw [hparams, hsp, ← ofNat_succ_add]
        exact hmapped (n + 1) (Nat.succ_lt_succ hn)
    exact ⟨t, u.popped i, h.cons hquiet hlow hhigh (by simpa using hmapped 0 (Nat.succ_pos _))⟩

/-- Settles O23: the fields of `PopsUndoPushes`. -/
theorem popsUndoPushesInReverse : Obligations.PopsUndoPushesInReverse := by
  intro vs i s hrun hidle hmem hlow hhigh hmapped
  obtain ⟨t, u, h⟩ := exists_popsUndoPushes vs i s ⟨hrun, hidle, hmem⟩ hlow hhigh hmapped
  exact ⟨t, u, h.pushes, h.pops, h.top, h.sp, h.cleared, h.others⟩

end Sys2Proof.Machine
end

section
/-! IN, OUT and the registry (45_io.md R171 to R178). -/

namespace Sys2Proof.Machine

/-! ## The bus -/

section
variable {s : State} {port : Byte} {d : Device} (v : Byte) (i : RegIndex) (len : Nat)

theorem inByte_present (h : FirstAt port d (hostTurn s).devices) :
    inByte i port len s = .done len ((afterHook (.receive d s.snapshot) s).setReg i
      (Config.deviceAnswer (afterHook (.receive d s.snapshot) s).busLog)) := by
  have hfind := findDevice_eq_some_iff.mpr h
  rcases busReceive_cases port s with ⟨d', hd', heq⟩ | ⟨hnone, -⟩
  · cases hfind.symm.trans hd'
    rw [inByte, heq, Access.andThen_done]
  · cases hfind.symm.trans hnone

theorem inByte_absent (h : ∀ d ∈ (hostTurn s).devices, d.port ≠ port) :
    inByte i port len s = .raised (.deviceNotPresent port) (hostTurn s) := by
  have hfind := findDevice_none.mpr h
  rcases busReceive_cases port s with ⟨d, hd, -⟩ | ⟨-, heq⟩
  · cases hfind.symm.trans hd
  · rw [inByte, heq, Access.andThen_raised]

theorem outByte_present (h : FirstAt port d (hostTurn s).devices) :
    outByte v port len s = .done len (afterHook (.send d s.snapshot v) s) := by
  have hfind := findDevice_eq_some_iff.mpr h
  rcases busSend_cases port v s with ⟨d', hd', heq⟩ | ⟨hnone, -⟩
  · cases hfind.symm.trans hd'
    rw [outByte, heq, Access.andThen_done]
  · cases hfind.symm.trans hnone

theorem outByte_absent (h : ∀ d ∈ (hostTurn s).devices, d.port ≠ port) :
    outByte v port len s = .raised (.deviceNotPresent port) (hostTurn s) := by
  have hfind := findDevice_none.mpr h
  rcases busSend_cases port v s with ⟨d, hd, -⟩ | ⟨-, heq⟩
  · cases hfind.symm.trans hd
  · rw [outByte, heq, Access.andThen_raised]

/-- With no host operation pending a hook's call is logged and nothing else happens. -/
theorem afterHook_idle (c : BusCall) (h : s.agenda = []) : afterHook c s = s.logCall c := by
  rw [afterHook, hostTurn_idle h]
  exact hostTurn_idle h

end

/-! ## IN and OUT at any port -/

section
variable {s : State} {port : Byte} {d : Device} (v : Byte) (i : RegIndex) {len : Nat}

theorem retire_inByte_present (h : FirstAt port d (hostTurn s).devices) (hlen : len ≠ 0) :
    NextIs (retire (inByte i port len s)) fun t =>
      RegisterResult s (afterHook (.receive d s.snapshot) s) t i (Config.deviceAnswer t.busLog) (BitVec.ofNat 16 len)
        ∧ (s.agenda = [] → t.busLog = .receive d s.snapshot :: s.busLog) := by
  rw [inByte_present i len h, retire_done, if_neg hlen]
  refine ⟨_, rfl, registerResult_setReg_setPc (afterHook_sameCore _ s) i _ _, fun hidle => ?_⟩
  rw [afterHook_idle _ hidle]
  rfl

theorem retire_inByte_absent (h : ∀ d ∈ (hostTurn s).devices, d.port ≠ port) :
    retire (inByte i port len s) = .next (raise (.deviceNotPresent port) (hostTurn s)) := by
  rw [inByte_absent i len h, retire_raised]

theorem retire_outByte_present (h : FirstAt port d (hostTurn s).devices) (hlen : len ≠ 0) :
    NextIs (retire (outByte v port len s)) fun t =>
      PcResult s (afterHook (.send d s.snapshot v) s) t (s.pc + BitVec.ofNat 16 len)
        ∧ (s.agenda = [] → t.busLog = .send d s.snapshot v :: s.busLog) := by
  have hcore := afterHook_sameCore (.send d s.snapshot v) s
  rw [outByte_present v len h, retire_done, if_neg hlen, hcore.pc]
  refine ⟨_, rfl, pcResult_setPc hcore _, fun hidle => ?_⟩
  rw [afterHook_idle _ hidle]
  rfl

theorem retire_outByte_absent (h : ∀ d ∈ (hostTurn s).devices, d.port ≠ port) :
    retire (outByte v port len s) = .next (raise (.deviceNotPresent port) (hostTurn s)) := by
  rw [outByte_absent v len h, retire_raised]

end

theorem exec_inImm_fieldOf (s : State) (i : RegIndex) (port : Byte) :
    exec (.inImm (fieldOf i) port) s = retire (inByte i port 3 s) := by
  rw [exec_inImm, withReg_fieldOf]

theorem exec_inReg_fieldOf (s : State) (i j : RegIndex) :
    exec (.inReg (fieldOf i) (fieldOf j)) s = retire (inByte i (s.reg j) 2 s) := by
  rw [exec_inReg, withRegs_fieldOf]

theorem exec_outImm_fieldOf (s : State) (i : RegIndex) (port : Byte) :
    exec (.outImm (fieldOf i) port) s = retire (outByte (s.reg i) port 3 s) := by
  rw [exec_outImm, withReg_fieldOf]

theorem exec_outReg_fieldOf (s : State) (i j : RegIndex) :
    exec (.outReg (fieldOf i) (fieldOf j)) s = retire (outByte (s.reg i) (s.reg j) 2 s) := by
  rw [exec_outReg, withRegs_fieldOf]

/-- Settles O26: both forms receive from the device that a lookup after the host's turn finds. -/
theorem inWritesDeviceAnswer : Obligations.InWritesDeviceAnswer := by
  refine ⟨fun s i port d hfirst => ?imm, fun s i j d hfirst => ?reg, fun s i port habsent => ?immAbsent,
    fun s i j habsent => ?regAbsent⟩
  case imm =>
    rw [exec_inImm_fieldOf]
    exact retire_inByte_present i hfirst (by decide)
  case reg =>
    rw [exec_inReg_fieldOf]
    exact retire_inByte_present i hfirst (by decide)
  case immAbsent => rw [exec_inImm_fieldOf, retire_inByte_absent i habsent]
  case regAbsent => rw [exec_inReg_fieldOf, retire_inByte_absent i habsent]

/-- Settles O27: both forms send to the device that a lookup after the host's turn finds. -/
theorem outSendsRegisterToDevice : Obligations.OutSendsRegisterToDevice := by
  refine ⟨fun s i port d hfirst => ?imm, fun s i j d hfirst => ?reg, fun s i port habsent => ?immAbsent,
    fun s i j habsent => ?regAbsent⟩
  case imm =>
    rw [exec_outImm_fieldOf]
    exact retire_outByte_present _ hfirst (by decide)
  case reg =>
    rw [exec_outReg_fieldOf]
    exact retire_outByte_present _ hfirst (by decide)
  case immAbsent => rw [exec_outImm_fieldOf, retire_outByte_absent _ habsent]
  case regAbsent => rw [exec_outReg_fieldOf, retire_outByte_absent _ habsent]

/-! ## Removal and registration -/

/-- The device that leaves the registry is the first at the port (log entry 8). -/
theorem dropDevice_append {port : Byte} {before after : List Device} {d : Device} (hd : d.port = port)
    (hbefore : ∀ e ∈ before, e.port ≠ port) : dropDevice port (before ++ d :: after) = before ++ after := by
  induction before with
  | nil => exact if_pos hd
  | cons e rest ih =>
    obtain ⟨he, hrest⟩ := List.forall_mem_cons.mp hbefore
    rw [List.cons_append, dropDevice, if_neg he, ih hrest, List.cons_append]

/-- Removing the first device at a port calls its hook and takes it from the registry (45_io.md R177). -/
theorem hostRemove_first {s : State} {before after : List Device} {d : Device}
    (hdevices : s.devices = before ++ d :: after) (hbefore : ∀ e ∈ before, e.port ≠ d.port) :
    hostRemove d.port s = { s.logCall (.onRemove d s.snapshot) with devices := before ++ after } := by
  have hfind : findDevice d.port s.devices = some d :=
    findDevice_eq_some_iff.mpr ⟨before, after, hdevices, rfl, hbefore⟩
  simp only [hostRemove, hfind]
  rw [hdevices, dropDevice_append rfl hbefore]

/-- Settles O28: with the only device at the port gone, the lookups of IN and OUT fail. -/
theorem removedDeviceIsNotPresent : Obligations.RemovedDeviceIsNotPresent := by
  intro s before after d i hidle hdevices hothers
  have hremove : applyHost (.remove d.port) s
      = { s.logCall (.onRemove d s.snapshot) with devices := before ++ after } :=
    hostRemove_first hdevices fun e he => hothers e (List.mem_append_left after he)
  have hturn : hostTurn (applyHost (.remove d.port) s) = applyHost (.remove d.port) s :=
    hostTurn_idle (by rw [hremove]; exact hidle)
  have habsent : ∀ e ∈ (hostTurn (applyHost (.remove d.port) s)).devices, e.port ≠ d.port := by
    rw [hturn, hremove]
    exact hothers
  refine ⟨by rw [hremove], by rw [hremove, State.logCall_busLog], ?_, ?_⟩
  · rw [exec_inImm_fieldOf, retire_inByte_absent i habsent, hturn]
  · rw [exec_outImm_fieldOf, retire_outByte_absent _ habsent, hturn]

theorem hostRegisterDefault_of_lt {s : State} (name : String) (h : s.nextPort < 256) :
    (hostRegisterDefault name s).devices = s.devices ++ [⟨BitVec.ofNat 8 s.nextPort, name⟩]
      ∧ (hostRegisterDefault name s).nextPort = s.nextPort + 1 := by
  rw [hostRegisterDefault, if_pos h]
  exact ⟨rfl, rfl⟩

theorem hostRegisterDefault_of_le {s : State} (name : String) (h : 256 ≤ s.nextPort) : hostRegisterDefault name s = s :=
  if_neg (Nat.not_lt_of_le h)

/-- Settles O29: each registration below 256 adds one device and moves the counter on, each above changes nothing. -/
theorem defaultRegistrationsNumberPortsInOrder : Obligations.DefaultRegistrationsNumberPortsInOrder := by
  refine ⟨fun names => ?numbered, fun names s hfull => ?refused⟩
  case numbered =>
    induction names with
    | nil => simp [applyHosts]
    | cons name rest ih =>
      intro s hfits
      rw [List.length_cons] at hfits
      obtain ⟨hdevices1, hport1⟩ := hostRegisterDefault_of_lt (s := s) name (by omega)
      obtain ⟨hdevices, hport⟩ := ih (hostRegisterDefault name s) (by omega)
      rw [List.map_cons, applyHosts, applyHost, hdevices, hport, hdevices1, hport1, List.zipIdx_cons']
      simp [Function.comp_def, Nat.add_assoc, Nat.add_comm 1]
  case refused =>
    induction names with
    | nil => rfl
    | cons name rest ih => rwa [List.map_cons, applyHosts, applyHost, hostRegisterDefault_of_le name hfull]

end Sys2Proof.Machine
end

section
/-! BANK and memory (47_bank.md R220, R221; 20_memory.md R53 to R58, R65, R66). -/

namespace Sys2Proof.Machine

/-! ## BANK -/

section
variable {s : State} {k : Byte}

theorem switchBank_configured (h : k.toNat < s.params.numBanks) : switchBank k s = .done 2 (selectBank k s) :=
  if_neg (Nat.not_le_of_lt h)

theorem switchBank_unconfigured (h : s.params.numBanks ≤ k.toNat) : switchBank k s = .raised (.memoryBank k) s :=
  if_pos h

theorem exec_bankReg_fieldOf (s : State) (i : RegIndex) :
    exec (.bankReg (fieldOf i)) s = retire (switchBank (s.reg i) s) := by
  rw [exec_bankReg, withReg_fieldOf]

theorem retire_switchBank_configured (h : k.toNat < s.params.numBanks) :
    retire (switchBank k s) = .next ((selectBank k s).setPc (s.pc + 2)) := by
  rw [switchBank_configured h, ← hostTurn_pc s]
  rfl

theorem retire_switchBank_unconfigured (h : s.params.numBanks ≤ k.toNat) :
    retire (switchBank k s) = .next (raise (.memoryBank k) s) := by
  rw [switchBank_unconfigured h, retire_raised]

/-- A bank selection writes the active bank alone, after the host's turn. -/
theorem retire_switchBank_selects (h : k.toNat < s.params.numBanks) :
    NextIs (retire (switchBank k s)) fun t =>
      t.bank = k ∧ SameRegs s t ∧ t.pc = s.pc + 2 ∧ t.sp = s.sp ∧ SameMemory (hostTurn s) t
        ∧ SameControl (hostTurn s) t := by
  rw [retire_switchBank_configured h]
  exact ⟨_, rfl, rfl, hostTurn_reg s, rfl, hostTurn_sp s, fun _ _ => rfl, rfl, rfl, rfl, rfl, rfl, rfl⟩

end

/-- Settles O36: both forms select the bank, of the register or the immediate, or raise before the host's turn. -/
theorem bankSelectsConfiguredBank : Obligations.BankSelectsConfiguredBank := by
  refine ⟨fun s i hbank => ?reg, fun s k hbank => retire_switchBank_selects hbank, fun s i hbank => ?regRaises,
    fun s k hbank => retire_switchBank_unconfigured hbank, raisesOnBadField_of_withReg exec_bankReg⟩
  case reg =>
    rw [exec_bankReg_fieldOf]
    exact retire_switchBank_selects hbank
  case regRaises => rw [exec_bankReg_fieldOf, retire_switchBank_unconfigured hbank]

/-! ## Isolation of the banks -/

section
variable {s : State}

theorem exec_bankImm_idle {k : Byte} (hidle : s.agenda = []) (h : k.toNat < s.params.numBanks) :
    exec (.bankImm k) s = .next { s with bank := k, pc := s.pc + 2 } := by
  rw [exec_bankImm, retire_switchBank_configured h, selectBank, hostTurn_idle hidle]
  rfl

theorem exec_swAbs_idle (i : RegIndex) {ea : Addr} (hidle : s.agenda = []) (h : mapped s.params ea = true) :
    exec (.swAbs (fieldOf i) ea) s = .next ((s.poke ea (s.reg i)).setPc (s.pc + 4)) := by
  rw [exec_swAbs, withReg_fieldOf, storeByte_mapped i 4 h, hostTurn_idle hidle]
  rfl

theorem exec_lwAbs_idle (i : RegIndex) {ea : Addr} (hidle : s.agenda = []) (h : mapped s.params ea = true) :
    exec (.lwAbs (fieldOf i) ea) s = .next ((s.setReg i (s.peek ea)).setPc (s.pc + 4)) := by
  rw [exec_lwAbs, withReg_fieldOf, loadByte_mapped i 4 h, hostTurn_idle hidle]
  rfl

end

/-- Settles O37: the byte is stored through bank `j` and loaded through bank `k`, which reach the same cell outside the
window alone. -/
theorem storeUnderOneBankIsUnseenUnderAnother : Obligations.StoreUnderOneBankIsUnseenUnderAnother := by
  intro s j k r d a hidle hmem hjk hj hk hmapped
  refine ⟨_, _, _, _, exec_bankImm_idle hidle hj, exec_swAbs_idle r hidle hmapped, exec_bankImm_idle hidle hk,
    exec_lwAbs_idle d hidle hmapped, ?_⟩
  have hmem' : ({ s with bank := j, pc := s.pc + 2 } : State).MemWf := hmem
  have hstored : (({ s with bank := j, pc := s.pc + 2 } : State).poke a (s.reg r)).readAs k a
      = if a = a ∧ (k = j ∨ inWindow s.params a = false) then s.reg r else s.readAs k a :=
    State.poke_readAs hmem' a (s.reg r) k a
  rw [State.setPc_reg, State.setReg_reg_self]
  refine hstored.trans ?_
  cases inWindow s.params a <;> simp [hjk.symm]

/-! ## One read, and a write between two reads -/

/-- Settles O38: the read is of the cell that the address is routed to. -/
theorem memReadGivesRoutedByte : Obligations.MemReadGivesRoutedByte := by
  intro s a
  refine ⟨memRead_unmapped, fun hmapped => ?_, hostTurn_idle⟩
  rw [memRead_mapped hmapped, State.peek, State.readAs, cellKey, hostTurn_params]

/-- A fetch from mapped addresses reads each byte after one more turn of the host. -/
theorem fetch_mapped {s : State} (h0 : mapped s.params s.pc = true) (h1 : mapped s.params (s.pc + 1) = true)
    (h2 : mapped s.params (s.pc + 2) = true) (h3 : mapped s.params (s.pc + 3) = true) :
    fetch s = .done ⟨(hostTurn s).peek s.pc, (hostTurn^[2] s).peek (s.pc + 1), (hostTurn^[3] s).peek (s.pc + 2),
      (hostTurn^[4] s).peek (s.pc + 3)⟩ (hostTurn^[4] s) := by
  have read : ∀ {a} n, mapped s.params a = true →
      memRead a (hostTurn^[n] s) = .done ((hostTurn^[n + 1] s).peek a) (hostTurn^[n + 1] s) := fun n ha => by
    rw [memRead_mapped ((HostActs.iterate s n).sameCore.params.symm ▸ ha), ← Function.iterate_succ_apply' hostTurn]
  rw [fetch, show memRead s.pc s = _ from read 0 h0, Access.andThen_done, read 1 h1, Access.andThen_done, read 2 h2,
    Access.andThen_done, read 3 h3, Access.andThen_done]
  rfl

/-- Reading through the active bank after a write through it. -/
theorem State.poke_peek {s : State} (hmem : s.MemWf) (a : Addr) (v : Byte) (b : Addr) :
    (s.poke a v).peek b = if b = a then v else s.peek b := by
  rw [State.peek, State.poke_readAs hmem]
  simp [State.peek]

/-- Settles O40: the writes come in the second turn of the host, after byte 0 is read and before byte 1 is. -/
theorem hostWriteInsideFetchTearsWindow : Obligations.HostWriteInsideFetchTearsWindow := by
  intro s v v' hagenda hmem h0 h1 h2 h3
  have hfirst : hostTurn s = { s with agenda := [[.set s.pc v, .set (s.pc + 1) v']] } := by
    simp [hostTurn, hagenda, applyHosts]
  have hsecond : hostTurn^[2] s = (({ s with agenda := [] } : State).poke s.pc v).poke (s.pc + 1) v' := by
    rw [Function.iterate_succ_apply', Function.iterate_one, hfirst]
    simp only [hostTurn, applyHosts, applyHost, hostSet, h0, State.poke_params, h1, if_true]
  have hlater : ∀ n, hostTurn^[n + 2] s = hostTurn^[2] s := fun n => by
    rw [Function.iterate_add_apply]
    exact hostTurn_iterate_idle (by rw [hsecond]; rfl) n
  have hpeek : ∀ a, (hostTurn^[2] s).peek a
      = if a = s.pc + 1 then v' else if a = s.pc then v else s.peek a := fun a => by
    have hmem' : ({ s with agenda := [] } : State).MemWf := hmem
    rw [hsecond, State.poke_peek (State.poke_memWf hmem' s.pc v), State.poke_peek hmem']
    rfl
  have hne : s.pc ≠ s.pc + 1 ∧ s.pc + 2 ≠ s.pc + 1 ∧ s.pc + 2 ≠ s.pc ∧ s.pc + 3 ≠ s.pc + 1 ∧ s.pc + 3 ≠ s.pc := by
    refine ⟨?_, ?_, ?_, ?_, ?_⟩ <;> bv_omega
  obtain ⟨h01, h21, h20, h31, h30⟩ := hne
  refine ⟨_, _, fetch_mapped h0 h1 h2 h3, ?_, ?_, (HostActs.iterate s 4).sameCore.pc⟩
  · rw [hlater 1, hlater 2, hpeek, hpeek, hpeek, if_pos rfl, if_neg h21, if_neg h20, if_neg h31, if_neg h30, hfirst]
    rfl
  · rw [hlater 2, hpeek, if_neg h01, if_pos rfl]

end Sys2Proof.Machine
end

section
/-! Reset (10_state.md R40), and how a run ends (70_reset_and_hazards.md R266). -/

namespace Sys2Proof.Machine

/-- Settles O1: `resetWith` writes the parameters' values, and the defaults are those listed. -/
theorem resetLeavesListedValues : Obligations.ResetLeavesListedValues := by
  refine ⟨fun p => ⟨fun _ => rfl, rfl, rfl, rfl, fun _ _ => rfl, rfl, rfl⟩, ?_, rfl, rfl, rfl, fun _ _ => rfl⟩
  decide

/-- The constraints on the stack and on the number of banks (00_scope.md R6). -/
theorem stack_and_banks_of_wf {p : Params} (hp : p.wf = true) : p.stack.toNat ≤ p.stackEnd.toNat ∧ 1 ≤ p.numBanks := by
  simp only [Params.wf, Bool.and_eq_true, decide_eq_true_eq] at hp
  obtain ⟨⟨⟨⟨-, hstack⟩, -⟩, hbanks⟩, -⟩ := hp
  exact ⟨hstack, hbanks⟩

theorem State.resetWith_inv {p : Params} (hp : p.wf = true) : (State.resetWith p).Inv := by
  obtain ⟨hstack, hbanks⟩ := stack_and_banks_of_wf hp
  have hnocell : ∀ c ∈ (State.resetWith p).mem, cellExists p c.1 = true := fun c hc => absurd hc List.not_mem_nil
  exact (State.inv_iff _).mpr ⟨hp, le_rfl, hstack, State.resetWith_memWf p, hnocell, hbanks, Nat.zero_le 256⟩

/-- Settles O3: an empty memory lists no cell, and bank 0 is configured. -/
theorem invariantHoldsAtReset : Obligations.InvariantHoldsAtReset :=
  ⟨fun _ hp => State.resetWith_inv hp, State.resetWith_inv (p := defaultParams) (by decide)⟩

/-! ## Runs -/

section
variable {s : State}

theorem runFor_faulted {r : FaultRecord} (n : Nat) (h : s.status = .faulted r) : runFor n s = .faulted r s := by
  cases n <;> simp only [runFor, h]

theorem runFor_stop (n : Nat) (hrun : s.status = .running) (hstop : s.params.stopPc = some s.pc) :
    runFor n s = .stopped s := by
  cases n <;> simp only [runFor, hrun, hstop, if_true]

theorem runFor_zero (hrun : s.status = .running) (hstop : s.params.stopPc ≠ some s.pc) : runFor 0 s = .going s := by
  simp only [runFor, hrun, hstop, if_false]

theorem runFor_succ {t : State} (n : Nat) (hrun : s.status = .running) (hstop : s.params.stopPc ≠ some s.pc)
    (hstep : step s = .next t) : runFor (n + 1) s = runFor n t := by
  simp only [runFor, hrun, hstop, if_false, hstep]

end

/-- The ends a run of at most `n` steps can have, said once: it has stopped or faulted, in a state that says so and with
any number of further steps allowed, or it is still going. -/
inductive RunResult (n : Nat) (s : State) : RunEnd → Prop where
  | stopped {t : State} (hrun : t.status = .running) (hstop : t.params.stopPc = some t.pc)
      (hstays : ∀ k, runFor (n + k) s = .stopped t) : RunResult n s (.stopped t)
  | faulted {r : FaultRecord} {t : State} (hfault : t.status = .faulted r)
      (hstays : ∀ k, runFor (n + k) s = .faulted r t) : RunResult n s (.faulted r t)
  | going (t : State) : RunResult n s (.going t)

/-- One step more, taken first. -/
theorem RunResult.succ {n : Nat} {s t : State} {e : RunEnd} (hsucc : ∀ m, runFor (m + 1) s = runFor m t)
    (h : RunResult n t e) : RunResult (n + 1) s e := by
  have hadd : ∀ k, runFor (n + 1 + k) s = runFor (n + k) t := fun k => by rw [Nat.add_right_comm, hsucc]
  cases h with
  | stopped hrun hstop hstays => exact .stopped hrun hstop fun k => (hadd k).trans (hstays k)
  | faulted hfault hstays => exact .faulted hfault fun k => (hadd k).trans (hstays k)
  | going => exact .going _

theorem runFor_result (n : Nat) (s : State) : RunResult n s (runFor n s) := by
  rcases running_or_faulted s with hrun | ⟨r, hfault⟩
  case inr =>
    rw [runFor_faulted n hfault]
    exact .faulted hfault fun k => runFor_faulted (n + k) hfault
  by_cases hstop : s.params.stopPc = some s.pc
  · rw [runFor_stop n hrun hstop]
    exact .stopped hrun hstop fun k => runFor_stop (n + k) hrun hstop
  cases n with
  | zero =>
    rw [runFor_zero hrun hstop]
    exact .going s
  | succ n =>
    obtain ⟨t, hstep, -⟩ := step_result hrun
    rw [runFor_succ n hrun hstop hstep]
    exact (runFor_result n t).succ fun m => runFor_succ m hrun hstop hstep

/-- Settles O46: each clause is a case of `RunResult`, which has none for a refusal. -/
theorem endedRunStaysEnded : Obligations.EndedRunStaysEnded := by
  refine ⟨fun n s => runFor_stop n, fun n s t h => ?stopped, fun n s t r h => ?faulted, fun n s r h => ?refused⟩
  all_goals have hresult := runFor_result n s
  all_goals rw [h] at hresult
  case stopped =>
    cases hresult with
    | stopped hrun hstop hstays => exact ⟨hrun, hstop, hstays⟩
  case faulted =>
    cases hresult with
    | faulted hfault hstays => exact ⟨hfault, hstays⟩
  case refused => cases hresult

end Sys2Proof.Machine
end
